-- ==== Sys2Proof/Word.lean ====
section
/-! DEFINITION. The words that cross the block's ports, at the widths of 00_scope.md R6. -/

namespace Sys2Proof

/-- A sample as its 16-bit two's-complement pattern (R18; SAMPLE_W = 16, R6). -/
abbrev Sample := BitVec 16

/-- An A-law code, one byte with bit 7 the most significant (R29; CODE_W = 8, R6). -/
abbrev Code := BitVec 8

/-- A STEP18 word, the step vector with rst in bit 17, in_valid in bit 16 and in_sample below (R38). -/
abbrev StepWord := BitVec 18

/-- An ENC16 word, the value driven on enc_in (R39). -/
abbrev EncWord := BitVec 16

/-- What the outside applies to the block: a step vector at one clock edge, or a value on the encoder
port, which is not tied to steps (R39, R104). -/
inductive PortWord where
  | step18 (w : StepWord)
  | enc16 (w : EncWord)
deriving DecidableEq, Repr

end Sys2Proof
end

