-- ==== Sys2Proof/Syntax.lean ====
section
/-! DEFINITION. The operations of the block, one constructor per row of spec/opcode_table.json (R44). -/

namespace Sys2Proof

/-- The four operations (R44). RESET and IDLE keep the fields their words carry and the operation
ignores (R43, R45; log 10), so that a word and its operation determine each other. -/
inductive Instr where
  /-- RESET: STEP18 with rst = 1; in_valid and in_sample are ignored (R93). -/
  | reset (iv : Bool) (x : Sample)
  /-- SAMPLE: STEP18 with rst = 0 and in_valid = 1 (R73). -/
  | sample (x : Sample)
  /-- IDLE: STEP18 with rst = 0 and in_valid = 0; in_sample is ignored (R74). -/
  | idle (x : Sample)
  /-- ENCODE: any ENC16 word (R51). -/
  | encode (x : Sample)
deriving DecidableEq, Repr

end Sys2Proof
end

