-- ==== Sys2Proof/Decode.lean ====
section
/-! DEFINITION. The decoder, total on the words of the two formats (R43, R45) and rejecting by name on
bytes; the opcode table; the encoder written from the same formats. -/

namespace Sys2Proof

/-- Decoding a STEP18 word: rst takes priority over in_valid (R43). -/
def decodeStep (w : StepWord) : Instr :=
  if w.getLsbD 17 then .reset (w.getLsbD 16) (w.extractLsb' 0 16)
  else if w.getLsbD 16 then .sample (w.extractLsb' 0 16)
  else .idle (w.extractLsb' 0 16)

/-- Every word of either format decodes (R43, R45). -/
def decode : PortWord → Instr
  | .step18 w => decodeStep w
  | .enc16 w => .encode w

/-- A word carried as bytes that is no word of the block. -/
inductive DecodeError where
  /-- neither two bytes (ENC16) nor three (STEP18) -/
  | badLength (n : Nat)
  /-- three bytes whose bits 23..18 are not 0: no 18-bit word -/
  | tooWide
deriving DecidableEq, Repr

/-- A word carried as bytes, least significant byte first. Two bytes are a 16-bit word, in the order
R28 gives a sample outside the block.
DESIGN CHOICE (log 8): an 18-bit word is carried as three bytes in the same order. -/
def wordOfBytes : List (BitVec 8) → Except DecodeError PortWord
  | [b0, b1] => .ok (.enc16 (b1 ++ b0))
  | [b0, b1, b2] =>
    if b2.toNat < 4 then .ok (.step18 (b2.extractLsb' 0 2 ++ b1 ++ b0)) else .error .tooWide
  | bs => .error (.badLength bs.length)

/-- The decoder on bytes. -/
def decodeBytes (bs : List (BitVec 8)) : Except DecodeError Instr :=
  (wordOfBytes bs).map decode

/-- The word of an operation, from the fields of R38 and R39. -/
def encode : Instr → PortWord
  | .reset iv x => .step18 (1#1 ++ BitVec.ofBool iv ++ x)
  | .sample x => .step18 (0#1 ++ 1#1 ++ x)
  | .idle x => .step18 (0#1 ++ 0#1 ++ x)
  | .encode x => .enc16 x

/-- The bytes of a word, least significant first (R28; log 8). -/
def bytesOfWord : PortWord → List (BitVec 8)
  | .step18 w => [w.extractLsb' 0 8, w.extractLsb' 8 8, (w.extractLsb' 16 2).setWidth 8]
  | .enc16 w => [w.extractLsb' 0 8, w.extractLsb' 8 8]

/-- A sample carried as two bytes: "least-significant-byte first (little-endian)" (R28). -/
def sampleBytes (x : Sample) : List (BitVec 8) :=
  [x.extractLsb' 0 8, x.extractLsb' 8 8]

/-- The formats of R38 and R39. -/
inductive Format where
  | step18Format
  | enc16Format
deriving DecidableEq, Repr

/-- A row of spec/opcode_table.json. -/
structure OpcodeRow where
  mnemonic : String
  format : Format
  width : Nat
  matchBits : Nat
  mask : Nat
deriving DecidableEq, Repr

/-- spec/opcode_table.json, one row per operation (R44). -/
def opcodeTable : List OpcodeRow :=
  [ { mnemonic := "RESET", format := .step18Format, width := 18, matchBits := 0x20000, mask := 0x20000 },
    { mnemonic := "SAMPLE", format := .step18Format, width := 18, matchBits := 0x10000, mask := 0x30000 },
    { mnemonic := "IDLE", format := .step18Format, width := 18, matchBits := 0x00000, mask := 0x30000 },
    { mnemonic := "ENCODE", format := .enc16Format, width := 16, matchBits := 0x0000, mask := 0x0000 } ]

/-- A row selects the words of its format that agree with its match under its mask (R44). -/
def OpcodeRow.selects (r : OpcodeRow) : PortWord → Bool
  | .step18 w => r.format == .step18Format && (w.toNat &&& r.mask) == r.matchBits
  | .enc16 w => r.format == .enc16Format && (w.toNat &&& r.mask) == r.matchBits

/-- The mnemonic of an operation, as the table spells it. -/
def Instr.mnemonic : Instr → String
  | .reset _ _ => "RESET"
  | .sample _ => "SAMPLE"
  | .idle _ => "IDLE"
  | .encode _ => "ENCODE"

/-- The number w as n bytes, least significant first. -/
def leBytes : Nat → Nat → List (BitVec 8)
  | 0, _ => []
  | n + 1, w => BitVec.ofNat 8 w :: leBytes n (w / 256)

/-- The word the table numbers w at a row of nbits bits: rows of up to 16 bits are ENC16 words, longer
ones STEP18 words (R46: two formats of fixed length). A number the format's bytes do not hold is no word. -/
def tableWord (nbits w : Nat) : Option PortWord :=
  let n := if nbits ≤ 16 then 2 else 3
  if w < 256 ^ n then (wordOfBytes (leBytes n w)).toOption else none

/-- The operation the decoder reads from the table's word. -/
def decodeTableWord (nbits w : Nat) : Option Instr :=
  (tableWord nbits w).map decode

end Sys2Proof
end

