-- ==== Sys2Proof/Config.lean ====
section
/-! DEFINITION. The build parameters of 00_scope.md R6 and the values the spec leaves unconstrained. -/

namespace Sys2Proof.Config

/-- ENC_VARIANT: which reading of the source's section 4.2 the encoder follows (R51, R67; C1). -/
inductive EncVariant where
  | resolved
  | literalDoc
deriving DecidableEq, Repr

/-- ENC_IMPL: the realization of the encoder, a segment search or a ROM (R65). -/
inductive EncImpl where
  | search
  | lut
deriving DecidableEq, Repr

/-- The build-time parameters that select a block. None is readable or writable at run time (R20). -/
structure Build where
  encVariant : EncVariant
  encImpl : EncImpl
deriving DecidableEq, Repr

/-- The default block: ENC_VARIANT = RESOLVED (R6, D10).
DESIGN CHOICE (log 3): ENC_IMPL = SEARCH; the spec names no default and calls the choice unobservable. -/
def defaultBuild : Build := { encVariant := .resolved, encImpl := .search }

/-- P at the n-th power-up, unspecified (R23). Free value (log 4). -/
opaque powerOnPhase : Nat → Bool

/-- out_valid at the n-th power-up, unspecified (R23). Free value (log 4). -/
opaque powerOnValid : Nat → Bool

/-- out_code at the n-th power-up, unspecified (R23). Free value (log 4). -/
opaque powerOnCode : Nat → Code

end Sys2Proof.Config
end

