-- ==== Sys2Proof/Machine/State.lean ====
section
/-! DEFINITION. The state of the machine: the block's three registers (R13, R25), and beside them what
the host's interface has no other place for: the build, the pending input words and the record of a run. -/

namespace Sys2Proof.Machine

/-- The block's registers, "exactly the record" of R25. -/
structure Regs where
  /-- P, the parity of the number of samples accepted since the last RESET (R14). -/
  phase : Bool
  /-- out_valid: 1 during the step after a step that emitted a code (R15). -/
  outValid : Bool
  /-- out_code: the last code emitted (R16). -/
  outCode : Code
deriving DecidableEq, Repr

/-- The machine. Only `regs` is state of the block (R13); the other fields are the model's (logs 1 to 3). -/
structure State where
  regs : Regs
  /-- The build parameters of R6, which no operation reads or writes as data (R20; log 3). -/
  cfg : Config.Build
  /-- The port words the outside will apply, the next one first (R25, R104; log 1). -/
  input : List PortWord
  /-- The output stream, oldest code first (R76; log 2). -/
  stream : List Code
  /-- The enc_out values of the ENCODE evaluations, oldest first (R104; log 2). -/
  encOuts : List Code
deriving DecidableEq, Repr

/-- The block has no fault: "no fault outcome and no refusal outcome" (R81, R92; log 9). No constructor,
so nothing raises one. -/
inductive Fault where
deriving DecidableEq, Repr

/-- Refusals. -/
inductive Refusal where
  /-- An operation that has no meaning yet. No arm of `exec` raises it (R81); stopping would be safe. -/
  | notModelled (mnemonic : String)
deriving DecidableEq, Repr

/-- The registers after a RESET step (R22, R93). -/
def Regs.afterReset : Regs := { phase := false, outValid := false, outCode := 0x00 }

/-- The machine right after a RESET step (R22) of the default build (R6), with no word pending and
nothing recorded (DESIGN CHOICE, logs 1 to 3). -/
def State.reset : State :=
  { regs := Regs.afterReset, cfg := Config.defaultBuild, input := [], stream := [], encOuts := [] }

/-- The machine at its n-th power-up, before any RESET: the registers are unspecified (R23, R95; log 4). -/
def State.powerOn (n : Nat) (cfg : Config.Build) (input : List PortWord) : State :=
  { regs := { phase := Config.powerOnPhase n, outValid := Config.powerOnValid n,
              outCode := Config.powerOnCode n },
    cfg := cfg, input := input, stream := [], encOuts := [] }

end Sys2Proof.Machine
end

