-- ==== Sys2Proof/Machine/Operands.lean ====
section
/-! DEFINITION. The one operand form of the block, a 16-bit sample pattern, and its two readings. -/

namespace Sys2Proof.Machine

/-- The sample value v = sext_16(field) (R18, R40). -/
def sampleValue (x : Sample) : Int := x.toInt

/-- The ROM address a = zext_16(field) (R26). -/
def romAddress (x : Sample) : Nat := x.toNat

/-- The pattern bits_16(v) of an integer v (R8, R47). -/
def samplePattern (v : Int) : Sample := BitVec.ofInt 16 v

end Sys2Proof.Machine
end

