-- ==== Sys2Proof/Machine/Encoder.lean ====
section
/-! DEFINITION. The A-law encoder of 40_alaw_encoder.md: the segment search, the literal reading, the ROM
and the function the block's build selects. Arithmetic is on exact integers (R8). -/

namespace Sys2Proof.Machine

open Sys2Proof.Config (EncVariant EncImpl Build)

/-- The sign-mask: 0xD5 for a non-negative value, 0x55 for a negative one (R52). -/
def signMask (v : Int) : Code := if 0 ≤ v then 0xD5 else 0x55

/-- The magnitude m: v, or -(v) - 1 when v is negative (R53). -/
def magnitude (v : Int) : Nat := if 0 ≤ v then v.toNat else (-v - 1).toNat

/-- The segment table T[0..7] (R54). -/
def segmentTable : List Nat := [255, 511, 1023, 2047, 4095, 8191, 16383, 32767]

/-- The smallest i with m <= T[i], or none (R55). -/
def segmentOf (m : Nat) : Option Nat := segmentTable.findIdx? (fun t => decide (m ≤ t))

/-- The quantization field q (R57). -/
def quantField (seg m : Nat) : Nat :=
  if seg ≤ 1 then (m >>> 4) &&& 0xF else (m >>> (seg + 3)) &&& 0xF

/-- The code before the sign-mask, (seg << 4) | q (R58). -/
def combine (seg q : Nat) : Code := BitVec.ofNat 8 ((seg <<< 4) ||| q)

/-- Encode under ENC_VARIANT = RESOLVED (R51). The out-of-range branch is kept as R56 writes it. -/
def encodeResolved (v : Int) : Code :=
  match segmentOf (magnitude v) with
  | none => 0x7F ^^^ signMask v
  | some seg => combine seg (quantField seg (magnitude v)) ^^^ signMask v

/-- Encode under ENC_VARIANT = LITERAL_DOC: the source's step 1 first, v >>> 3 (R67). -/
def encodeLiteral (v : Int) : Code := encodeResolved (v >>> (3 : Nat))

/-- EncodeSearch under the configured ENC_VARIANT (R27, R51, R67). -/
def encodeSearch : EncVariant → Int → Code
  | .resolved, v => encodeResolved v
  | .literalDoc, v => encodeLiteral v

/-- The content of the ROM: entry a holds EncodeSearch(sext_16(a)), for 65536 entries (R26, R27). -/
def romTable (var : EncVariant) : List Code :=
  (List.range 65536).map fun a => encodeSearch var (sampleValue (BitVec.ofNat 16 a))

/-- All 65536 addresses are valid (R32). -/
theorem romTable_length (var : EncVariant) : (romTable var).length = 65536 := by
  simp [romTable]

/-- RomRead(a) for the address of a sample (R26). -/
def romRead (var : EncVariant) (x : Sample) : Code :=
  (romTable var)[romAddress x]'(by rw [romTable_length]; exact x.isLt)

/-- The acceptance test: a table is a valid realization only if it is byte-identical to the table of the
segment search (R27, R65). -/
def acceptsTable (var : EncVariant) (table : List Code) : Bool := table == romTable var

/-- Encode as the build realizes it, SEARCH or LUT (R65). -/
def encoder (b : Build) (x : Sample) : Code :=
  match b.encImpl with
  | .search => encodeSearch b.encVariant (sampleValue x)
  | .lut => romRead b.encVariant x

end Sys2Proof.Machine
end

