-- ==== Sys2Proof/Machine/Flags.lean ====
section
/-! DEFINITION. The block has no flags and no operation writes one (R11, R19). The encoder's out-of-range
condition is "internal to one evaluation of Encode and is never stored" (R19): it is the answer `none` of
`segmentOf`. The one condition an operation tests is this. -/

namespace Sys2Proof.Machine

/-- The next accepted sample is at an even 1-based position: P = 1 (R14). -/
def emits (r : Regs) : Bool := r.phase

end Sys2Proof.Machine
end

