-- ==== Sys2Proof/Assembly.lean ====
section
/-! DEFINITION. The lines of a test program as data (30_encoding.md R47 and R48). -/

namespace Sys2Proof

/-- The operand v of an assembler line: a signed decimal integer, or `0xHHHH` (R47). -/
inductive AsmOperand where
  | dec (v : Int)
  | hex (h : Sample)
deriving DecidableEq, Repr

/-- One line: the five forms of R47 and the two pseudo-operations of R48. -/
inductive AsmLine where
  | reset
  | sample (v : AsmOperand)
  | idle
  | step (r i : Bool) (v : AsmOperand)
  | encode (v : AsmOperand)
  | samples (vs : List AsmOperand)
  | idles (n : Nat)
deriving DecidableEq, Repr

/-- Why the assembler refuses a line. -/
inductive AsmError where
  /-- a decimal operand outside [-32768, 32767] (R47: "refused by the assembler, not wrapped") -/
  | outOfRange
  /-- SAMPLES or IDLES with a count of zero (R48: n >= 1) -/
  | emptyCount
  /-- the text of the line has none of the forms of R47 and R48 -/
  | badLine
deriving DecidableEq, Repr

end Sys2Proof
end

