-- ==== Sys2Proof/WellFormed.lean ====
section
/-! DEFINITION. Which terms are well formed. Every term of `Instr` is: no encoding is reserved or
illegal and every sample is valid (R40, R45), so operations have no check. What the spec does check
are the lines of the assembler; the canonical words of R49 and the bit orders of a serial link are
two more predicates on data. -/

namespace Sys2Proof

/-- "A decimal value outside the range is refused by the assembler" (R47). -/
def AsmOperand.wf : AsmOperand → Bool
  | .dec v => decide (-32768 ≤ v ∧ v ≤ 32767)
  | .hex _ => true

/-- A line's operands are in range (R47) and a pseudo-operation has n >= 1 (R48). -/
def AsmLine.wf : AsmLine → Bool
  | .reset => true
  | .sample v => v.wf
  | .idle => true
  | .step _ _ v => v.wf
  | .encode v => v.wf
  | .samples vs => !vs.isEmpty && vs.all AsmOperand.wf
  | .idles n => decide (1 ≤ n)

/-- The operations whose word is the one the assembler gives: ignored fields are 0 (R49). -/
def Instr.canonical : Instr → Bool
  | .reset iv x => !iv && x == 0
  | .sample _ => true
  | .idle x => x == 0
  | .encode _ => true

/-- A transmission order of the 8 bits of a code names each bit once (CODE_BIT_ORDER, R6, R29; log 11). -/
def codeBitOrderWf (order : List (Fin 8)) : Bool :=
  decide (order.length = 8 ∧ order.Nodup)

end Sys2Proof
end

