-- ==== Sys2Proof/Machine/Ops.lean ====
section
/-! DEFINITION. The named operations over the machine that the meanings share. Each reads the old
registers and writes the new ones together (R21). The block has no exception, so there is no entry and
no return (R81, R85, R86), and no writable memory (R26, R32). -/

namespace Sys2Proof.Machine

/-- Write the three registers together, at the end of the step (R21). -/
def State.writeRegs (s : State) (r : Regs) : State := { s with regs := r }

/-- emit(c): append a code to the output stream (R9, R76). -/
def State.emit (s : State) (c : Code) : State := { s with stream := s.stream ++ [c] }

/-- Read enc_out for an ENCODE evaluation and record it among the results of the run (R104). -/
def State.observeEncOut (s : State) (c : Code) : State := { s with encOuts := s.encOuts ++ [c] }

/-- Accept one sample (R73). -/
def State.acceptSample (s : State) (x : Sample) : State :=
  if emits s.regs then
    (s.writeRegs { phase := !s.regs.phase, outValid := true, outCode := encoder s.cfg x }).emit
      (encoder s.cfg x)
  else
    s.writeRegs { phase := !s.regs.phase, outValid := false, outCode := s.regs.outCode }

/-- End the out_valid pulse and keep the rest (R74). -/
def State.noSample (s : State) : State := s.writeRegs { s.regs with outValid := false }

/-- Set the words the outside will still apply (log 1). -/
def State.withInput (s : State) (ws : List PortWord) : State := { s with input := ws }

/-- Take the next word the outside applies, if there is one (R104; log 1). -/
def State.takeWord (s : State) : Option (PortWord × State) :=
  match s.input with
  | [] => none
  | w :: rest => some (w, s.withInput rest)

/-- Let the outside apply w next, before the words already pending (log 8). -/
def State.presentWord (s : State) (w : PortWord) : State := s.withInput (w :: s.input)

/-- The out_valid port shows the register (R17, R21). -/
def State.portOutValid (s : State) : Bool := s.regs.outValid

/-- The out_code port shows the register (R17, R21). -/
def State.portOutCode (s : State) : Code := s.regs.outCode

/-- The enc_out port while x is driven on enc_in, in any state (R17, R71). -/
def State.portEncOut (s : State) (x : EncWord) : Code := encoder s.cfg x

/-- The bits of a code in the order a serial link outside the block sends them, first sent first. The
order is the OPEN parameter CODE_BIT_ORDER, an argument (R6, R29; log 11). -/
def serialBits (order : List (Fin 8)) (c : Code) : List Bool :=
  order.map fun i => c.getLsbD i.val

end Sys2Proof.Machine
end

