-- ==== Sys2Proof/Machine/Control.lean ====
section
/-! DEFINITION. The meanings of RESET and IDLE. -/

namespace Sys2Proof.Machine

/-- RESET: P, out_valid and out_code are cleared; the presented sample, if any, is dropped; the codes
already emitted stay in the stream (R93, R100). -/
def execReset (_iv : Bool) (_x : Sample) (s : State) : Host.Outcome State Fault Refusal :=
  .next (s.writeRegs Regs.afterReset)

/-- IDLE: out_valid is cleared, P and out_code are kept (R74). -/
def execIdle (_x : Sample) (s : State) : Host.Outcome State Fault Refusal :=
  .next s.noSample

end Sys2Proof.Machine
end

