-- ==== Sys2Proof/Machine/EncoderPort.lean ====
section
/-! DEFINITION. The meaning of ENCODE. -/

namespace Sys2Proof.Machine

/-- ENCODE: enc_out = Encode(sext_16(enc_in)); no register is read or written and no step passes
(R51, R71). The value read is recorded as a result of the run (R104). -/
def execEncode (x : Sample) (s : State) : Host.Outcome State Fault Refusal :=
  .next (s.observeEncOut (s.portEncOut x))

end Sys2Proof.Machine
end

