-- ==== Sys2Proof/Machine/Stream.lean ====
section
/-! DEFINITION. The meaning of SAMPLE. -/

namespace Sys2Proof.Machine

/-- SAMPLE: accept one sample, and emit its code if it is at an even position (R73). -/
def execSample (x : Sample) (s : State) : Host.Outcome State Fault Refusal :=
  .next (s.acceptSample x)

end Sys2Proof.Machine
end

