-- ==== Sys2Proof/Machine/Dispatch.lean ====
section
/-! DEFINITION. One arm per operation. -/

namespace Sys2Proof.Machine

def exec (i : Instr) (s : State) : Host.Outcome State Fault Refusal :=
  match i with
  | .reset iv x => Sys2Proof.Machine.execReset iv x s
  | .sample x => Sys2Proof.Machine.execSample x s
  | .idle x => Sys2Proof.Machine.execIdle x s
  | .encode x => Sys2Proof.Machine.execEncode x s

end Sys2Proof.Machine
end

