-- ==== Sys2Proof/Machine/Step.lean ====
section
/-! DEFINITION. One step of the machine: apply the next word of the outside. -/

namespace Sys2Proof.Machine

/-- Take the next word, decode it and run its operation (R10, R43, R104). With no word applied there is
no clock edge and the state is held (R91). DEDUCED (log 5). -/
def step (s : State) : Host.Outcome State Fault Refusal :=
  match s.takeWord with
  | none => .next s
  | some (w, t) => exec (decode w) t

/-- The outside applies the table's word next (log 8). A number that is no word of the block is not applied. -/
def State.withFetchWord (s : State) (nbits w : Nat) : State :=
  match tableWord nbits w with
  | some p => s.presentWord p
  | none => s

end Sys2Proof.Machine
end

