-- ==== Sys2Proof/Machine/Assembler.lean ====
section
/-! DEFINITION. The assembler and the disassembler of test programs (30_encoding.md R47 to R49). Text is
a list of characters, one list a line. -/

namespace Sys2Proof.Machine

/-- The sample value an operand stands for (R47). -/
def operandValue : AsmOperand → Int
  | .dec v => v
  | .hex h => sampleValue h

/-- The field an operand gives, bits_16(v) (R47). -/
def operandPattern (o : AsmOperand) : Sample := samplePattern (operandValue o)

/-- The STEP18 word of `STEP r, i, v`, {r, i, bits_16(v)} (R47). -/
def stepWordOf (r i : Bool) (x : Sample) : StepWord := BitVec.ofBool r ++ BitVec.ofBool i ++ x

/-- The words a well-formed line stands for, in order: the canonical word of each operation (R47, R49),
one word for each line a pseudo-operation expands to (R48). -/
def lineWords : AsmLine → List PortWord
  | .reset => [.step18 0x20000]
  | .sample v => [.step18 (stepWordOf false true (operandPattern v))]
  | .idle => [.step18 0x00000]
  | .step r i v => [.step18 (stepWordOf r i (operandPattern v))]
  | .encode v => [.enc16 (operandPattern v)]
  | .samples vs => vs.map fun v => .step18 (stepWordOf false true (operandPattern v))
  | .idles n => List.replicate n (.step18 0x00000)

/-- The name of what is wrong with a line that is not well formed. -/
def lineError : AsmLine → AsmError
  | .samples [] => .emptyCount
  | .idles _ => .emptyCount
  | _ => .outOfRange

/-- The assembler: an ill-formed line is refused, not wrapped (R47). -/
def assemble (l : AsmLine) : Except AsmError (List PortWord) :=
  if l.wf then .ok (lineWords l) else .error (lineError l)

/-- The disassembler (R49). DEDUCED (log 13): an ENC16 word prints as `ENCODE v`. -/
def disassemble (w : PortWord) : AsmLine :=
  match decode w with
  | .reset _ _ => .reset
  | .sample x => .sample (.dec (sampleValue x))
  | .idle _ => .idle
  | .encode x => .encode (.dec (sampleValue x))

/-! The text of a line (R47, R48). DESIGN CHOICE (log 13): blanks are spaces and tabs and may stand around
every part of a line; hexadecimal digits may be of either case; a plus sign is not a sign. -/

def isBlank (c : Char) : Bool := c == ' ' || c == '\t'

def trimBlanks (cs : List Char) : List Char :=
  ((cs.dropWhile isBlank).reverse.dropWhile isBlank).reverse

/-- "`;` begins a comment to the end of the line" (R47). -/
def stripComment (cs : List Char) : List Char := cs.takeWhile (fun c => !(c == ';'))

def splitCommas : List Char → List (List Char)
  | [] => [[]]
  | c :: cs =>
    if c == ',' then [] :: splitCommas cs
    else
      match splitCommas cs with
      | [] => [[c]]
      | part :: parts => (c :: part) :: parts

def hexDigit (c : Char) : Option Nat :=
  let n := c.toNat
  if 48 ≤ n ∧ n ≤ 57 then some (n - 48)
  else if 65 ≤ n ∧ n ≤ 70 then some (n - 55)
  else if 97 ≤ n ∧ n ≤ 102 then some (n - 87)
  else none

def decDigit (c : Char) : Option Nat :=
  let n := c.toNat
  if 48 ≤ n ∧ n ≤ 57 then some (n - 48) else none

/-- The number a non-empty list of decimal digits writes. -/
def parseNat (cs : List Char) : Option Nat :=
  match cs with
  | [] => none
  | _ => cs.foldlM (fun acc c => (decDigit c).map fun d => 10 * acc + d) 0

/-- `0xHHHH` of exactly four hexadecimal digits, or a signed decimal integer (R47). -/
def parseOperand : List Char → Option AsmOperand
  | ['0', 'x', a, b, c, d] =>
    match hexDigit a, hexDigit b, hexDigit c, hexDigit d with
    | some a, some b, some c, some d =>
      some (.hex (BitVec.ofNat 16 (((a * 16 + b) * 16 + c) * 16 + d)))
    | _, _, _, _ => none
  | '-' :: cs => (parseNat cs).map fun n => .dec (-(n : Int))
  | cs => (parseNat cs).map fun n => .dec (n : Int)

def parseBit : List Char → Option Bool
  | ['0'] => some false
  | ['1'] => some true
  | _ => none

/-- The line a mnemonic and its operands write (R47, R48). -/
def parseForm (mnemonic : List Char) (args : List (List Char)) : Option AsmLine :=
  if mnemonic == "RESET".toList then
    if args.isEmpty then some .reset else none
  else if mnemonic == "IDLE".toList then
    if args.isEmpty then some .idle else none
  else if mnemonic == "SAMPLE".toList then
    match args with
    | [v] => (parseOperand v).map .sample
    | _ => none
  else if mnemonic == "ENCODE".toList then
    match args with
    | [v] => (parseOperand v).map .encode
    | _ => none
  else if mnemonic == "STEP".toList then
    match args with
    | [r, i, v] =>
      match parseBit r, parseBit i, parseOperand v with
      | some r, some i, some v => some (.step r i v)
      | _, _, _ => none
    | _ => none
  else if mnemonic == "SAMPLES".toList then
    (args.mapM parseOperand).map .samples
  else if mnemonic == "IDLES".toList then
    match args with
    | [n] => (parseNat n).map .idles
    | _ => none
  else none

/-- A line of text: nothing but blanks and a comment is no line; otherwise one form, or a refusal. -/
def parseLine (text : List Char) : Except AsmError (Option AsmLine) :=
  let body := trimBlanks (stripComment text)
  if body.isEmpty then .ok none
  else
    let mnemonic := body.takeWhile (fun c => !isBlank c)
    let rest := trimBlanks (body.dropWhile (fun c => !isBlank c))
    let args := if rest.isEmpty then [] else (splitCommas rest).map trimBlanks
    match parseForm mnemonic args with
    | some l => .ok (some l)
    | none => .error .badLine

/-- The words of a test program given as lines of text, in order. -/
def assembleText : List (List Char) → Except AsmError (List PortWord)
  | [] => .ok []
  | t :: ts =>
    match parseLine t with
    | .error e => .error e
    | .ok none => assembleText ts
    | .ok (some l) =>
      match assemble l, assembleText ts with
      | .ok ws, .ok more => .ok (ws ++ more)
      | .error e, _ => .error e
      | .ok _, .error e => .error e

end Sys2Proof.Machine
end

