-- ==== Sys2Proof/Machine/Reference.lean ====
section
/-! DEFINITION. The second descriptions the spec gives of the same functions. No meaning calls one: the
obligations compare the machine with them. -/

namespace Sys2Proof.Machine

/-- Decimate: every second sample, positions 2, 4, ... (R72). -/
def decimate {α : Type} : List α → List α
  | _ :: y :: rest => y :: decimate rest
  | _ => []

/-- The samples the words present to the block, those of SAMPLE steps, in order (R77). -/
def samplesOf (ws : List PortWord) : List Sample :=
  ws.filterMap fun w =>
    match decode w with
    | .sample x => some x
    | _ => none

/-- The values driven on enc_in, in order (R104). -/
def encodesOf (ws : List PortWord) : List Sample :=
  ws.filterMap fun w =>
    match decode w with
    | .encode x => some x
    | _ => none

/-- The word is a RESET step. -/
def isReset (w : PortWord) : Bool :=
  match decode w with
  | .reset _ _ => true
  | _ => false

/-- The decimator with a position counter that wraps modulo 2^k instead of P (R14, R75): the codes emitted
for the words ws when n samples have been counted. -/
def emittedByCounter (enc : Sample → Code) (k : Nat) : Nat → List PortWord → List Code
  | _, [] => []
  | n, w :: ws =>
    match decode w with
    | .reset _ _ => emittedByCounter enc k 0 ws
    | .sample x =>
      let position := (n + 1) % 2 ^ k
      if position % 2 = 0 then enc x :: emittedByCounter enc k position ws
      else emittedByCounter enc k position ws
    | .idle _ => emittedByCounter enc k n ws
    | .encode _ => emittedByCounter enc k n ws

/-- The magnitude in bit form, the 15 low bits inverted when the sample is negative (R53). -/
def magnitudeBits (x : Sample) : BitVec 15 :=
  x.extractLsb' 0 15 ^^^ (if x.getLsbD 15 then BitVec.allOnes 15 else 0)

/-- The priority encoder on m[14:8] (R55, R60). -/
def segmentBits (m : BitVec 15) : Nat :=
  if m.getLsbD 14 then 7 else if m.getLsbD 13 then 6 else if m.getLsbD 12 then 5
  else if m.getLsbD 11 then 4 else if m.getLsbD 10 then 3 else if m.getLsbD 9 then 2
  else if m.getLsbD 8 then 1 else 0

/-- q = m[7:4] in segment 0, m[seg+6 : seg+3] above (R57, R60). -/
def quantBits (m : BitVec 15) : BitVec 4 :=
  if segmentBits m = 0 then m.extractLsb' 4 4 else m.extractLsb' (segmentBits m + 3) 4

/-- The bit-level form of Encode under RESOLVED (R60). -/
def encodeBits (x : Sample) : Code :=
  (BitVec.ofBool (!x.getLsbD 15) ++ BitVec.ofNat 3 (segmentBits (magnitudeBits x)) ++
    quantBits (magnitudeBits x)) ^^^ 0x55#8

/-- The 13-bit thresholds T[i] >> 3 (R61). -/
def segmentTable13 : List Nat := [31, 63, 127, 255, 511, 1023, 2047, 4095]

/-- The 13-bit form of Encode under RESOLVED, which keeps the source's step 1 shift (R61). -/
def encode13 (v : Int) : Code :=
  let u := v >>> (3 : Nat)
  let w := if 0 ≤ u then u.toNat else (-u - 1).toNat
  let mask : Code := if 0 ≤ u then 0xD5 else 0x55
  match segmentTable13.findIdx? (fun t => decide (w ≤ t)) with
  | none => 0x7F ^^^ mask
  | some seg =>
    let q := if seg ≤ 1 then (w >>> 1) &&& 0xF else (w >>> seg) &&& 0xF
    BitVec.ofNat 8 ((seg <<< 4) ||| q) ^^^ mask

/-- The step size of a segment, the magnitudes one value of q covers (R62). -/
def stepSize (seg : Nat) : Nat := if seg ≤ 1 then 16 else 2 ^ (seg + 3)

/-- The lowest magnitude of a segment (R62). -/
def segmentBase (seg : Nat) : Nat := if seg = 0 then 0 else 2 ^ (seg + 7)

/-- The segment index of a code, c[6:4] ^ 0b101 (R41). -/
def codeSegment (c : Code) : Nat := ((c ^^^ 0x55).extractLsb' 4 3).toNat

/-- The quantization field of a code, c[3:0] ^ 0b0101 (R41). -/
def codeQuant (c : Code) : Nat := ((c ^^^ 0x55).extractLsb' 0 4).toNat

/-- The A-law expansion that 93_implementation_defined.md part 2 gives for testing the round trip of R70.
PRESUMED (log 12): it is from general knowledge and no part of the block. -/
def expand (c : Code) : Int :=
  let t : Nat :=
    if codeSegment c = 0 then (codeQuant c <<< 4) + 8
    else ((codeQuant c <<< 4) + 0x108) <<< (codeSegment c - 1)
  if c.getLsbD 7 then (t : Int) else -(t : Int)

end Sys2Proof.Machine
end

