-- ==== Sys2Proof/Safety.lean ====
section
/-! DEFINITION. Runs of the machine, the invariant of its reachable states, and the consumer of the output
ports, in the terms the claims use. -/

namespace Sys2Proof.Machine

/-- k steps from s end in t with no fault and no refusal: a safe run (R104). -/
def Runs (k : Nat) (s t : State) : Prop := Host.Core.run Sys2Proof.core k s = .next t

/-- What holds after a RESET and at every step from then on. -/
structure State.Inv (s : State) : Prop where
  /-- A code was just emitted only at an even position, so P is back at 0 (R14, R73). -/
  valid_phase : s.regs.outValid = true → s.regs.phase = false
  /-- While out_valid = 1, out_code is the newest code of the stream (R76). -/
  valid_newest : s.regs.outValid = true → s.stream.getLast? = some s.regs.outCode
  /-- out_code is an emitted code, or 0x00 (R16). -/
  code_origin : s.regs.outCode = 0x00 ∨ s.regs.outCode ∈ s.stream
  /-- Every code of the stream is Encode of some sample (R95). -/
  stream_codes : ∀ c ∈ s.stream, ∃ x : Sample, c = encoder s.cfg x
  /-- Every recorded enc_out value is Encode of some sample (R71). -/
  encOuts_codes : ∀ c ∈ s.encOuts, ∃ x : Sample, c = encoder s.cfg x

/-- The code on the output ports, if out_valid = 1 (R15, R99). -/
def portCode (s : State) : List Code := if s.portOutValid then [s.portOutCode] else []

/-- What a consumer has that captures the ports at every step edge of a run of k steps and looks once more
at its end: the edge of a step sees the registers as the step before left them (R98, R99). An ENCODE is
no step and has no edge. -/
def capture : Nat → State → List Code
  | 0, s => portCode s
  | k + 1, s =>
    match step s with
    | .next t =>
      match s.input with
      | .step18 _ :: _ => portCode s ++ capture k t
      | _ => capture k t
    | .fault _ => []
    | .refused _ => []

end Sys2Proof.Machine
end

