-- ==== Sys2Proof/Certificates/Slice0/Obligations.lean ====
section
/-! DEFINITION. The statements about the model, from the numbered rules of spec/. -/

open Sys2Proof Sys2Proof.Machine

namespace Sys2Proof.Claims

/-- The result c of steps 2 to 6 of R51 on a value v, written with quotients and remainders and with none
of the encoder's own functions: the sign-mask and the magnitude (R52, R53), the smallest segment whose
threshold 2^(seg+8) - 1 the magnitude does not exceed (R54, R55), the quantization field (R57), and the
combination (R58). EncodeFollowsPseudocode states that at most one c satisfies it. -/
def AlawStepsGive (v : Int) (c : Code) : Prop :=
  ∃ (mask : Code) (m seg q : Nat),
    (0 ≤ v → mask = 0xD5 ∧ (m : Int) = v) ∧
    (v < 0 → mask = 0x55 ∧ (m : Int) = -v - 1) ∧
    seg ≤ 7 ∧ m ≤ 2 ^ (seg + 8) - 1 ∧ (∀ j, j < seg → 2 ^ (j + 8) - 1 < m) ∧
    (seg ≤ 1 → q = m / 2 ^ 4 % 16) ∧ (2 ≤ seg → q = m / 2 ^ (seg + 3) % 16) ∧
    c = BitVec.ofNat 8 (16 * seg + q) ^^^ mask

/-- The values of a sample (R18). -/
def InSampleRange (v : Int) : Prop := -32768 ≤ v ∧ v ≤ 32767

/-- The word of a step {rst, in_valid, in_sample} (R38). -/
def stepOf (rst iv : Bool) (x : Sample) : PortWord := .step18 (stepWordOf rst iv x)

/-- Every word of the list is an IDLE step, whatever its in_sample field. -/
def AllIdle (ws : List PortWord) : Prop := ∀ w ∈ ws, ∃ x, decode w = .idle x

/-- No word of the list is a RESET step. -/
def NoReset (ws : List PortWord) : Prop := ∀ w ∈ ws, isReset w = false

end Sys2Proof.Claims

open Sys2Proof.Claims

/-! ### Reset, power-on and the step -/

/-- 10_state.md section 5: P, out_valid and out_code after a RESET. The empty lists and the SEARCH
realization are the model's choice (logs 1 to 3). -/
def Obligations.ResetStateValues : Prop :=
  State.reset.regs.phase = false ∧ State.reset.regs.outValid = false ∧
  State.reset.regs.outCode = 0x00 ∧ State.reset.cfg.encVariant = .resolved ∧
  State.reset.input = [] ∧ State.reset.stream = [] ∧ State.reset.encOuts = []

/-- 70_reset_and_hazards.md sections 1 and 2: whatever the registers hold at power-up, one RESET step
gives the registers after reset. -/
def Obligations.OneResetStepAfterPowerOn : Prop :=
  ∀ (n : Nat) (cfg : Config.Build) (iv : Bool) (x : Sample) (rest : List PortWord),
    ∃ t, step (State.powerOn n cfg (stepOf true iv x :: rest)) = .next t ∧
      t.regs = State.reset.regs ∧ t.cfg = cfg ∧ t.input = rest ∧ t.stream = []

/-- A step takes the next word the outside applies and runs the operation it decodes to. That the word of
an ENCODE, which is no step of the block (00_scope.md section 5), takes a step of the model is the model's
reading, log 6; that the state is held with no word applied is the model's reading, log 5. -/
def Obligations.StepRunsDecodedOperation : Prop :=
  (∀ (s : State) (w : PortWord) (rest : List PortWord), s.input = w :: rest →
    step s = exec (decode w) { s with input := rest }) ∧
  (∀ s : State, s.input = [] → step s = .next s)

/-- The words of the table's numbering (log 8): what the decoder reads from them is what the machine runs
when they are applied next. -/
def Obligations.TableWordRunsNext : Prop :=
  ∀ (s : State) (nbits w : Nat) (i : Instr), decodeTableWord nbits w = some i →
    step (s.withFetchWord nbits w) = exec i s

/-! ### Encodings -/

/-- The words written out in 30_encoding.md section 6 and 95_test_vectors.md section 2.6. -/
def Obligations.WorkedWordsDecode : Prop :=
  decode (.step18 0x10002) = .sample 2 ∧ decode (.step18 0x1FFFF) = .sample 0xFFFF ∧
  decode (.step18 0x17FFF) = .sample 0x7FFF ∧ decode (.step18 0x18000) = .sample 0x8000 ∧
  decode (.step18 0x103E8) = .sample 1000 ∧ decode (.step18 0x3FFFF) = .reset true 0xFFFF ∧
  decode (.step18 0x20000) = .reset false 0 ∧ decode (.step18 0x2ABCD) = .reset false 0xABCD ∧
  decode (.step18 0x00000) = .idle 0 ∧ decode (.step18 0x0FFFF) = .idle 0xFFFF ∧
  decode (.enc16 0x8000) = .encode 0x8000

/-- R43, the operation map: every STEP18 word is {rst, iv, s} for some fields, and they select one
operation; rst takes priority and drops the sample; s is read only by SAMPLE. -/
def Obligations.StepWordsFollowOperationMap : Prop :=
  (∀ w : StepWord, ∃ rst iv x, PortWord.step18 w = stepOf rst iv x) ∧
  (∀ iv x, decode (stepOf true iv x) = .reset iv x) ∧
  (∀ x, decode (stepOf false true x) = .sample x) ∧
  (∀ x, decode (stepOf false false x) = .idle x) ∧
  (∀ iv x s, ∃ t, exec (decode (stepOf true iv x)) s = .next t ∧
    exec (decode (stepOf true false 0)) s = .next t ∧ t.stream = s.stream ∧ t.regs.phase = false) ∧
  (∀ x s, exec (decode (stepOf false false x)) s = exec (decode (stepOf false false 0)) s)

/-- R44: exactly four operations, one row each; a word is selected by one row, the row of the operation it
decodes to; ENCODE is selected by any ENC16 word. -/
def Obligations.OneRowSelectsEachWord : Prop :=
  opcodeTable.map OpcodeRow.mnemonic = ["RESET", "SAMPLE", "IDLE", "ENCODE"] ∧
  (∀ w : PortWord, ∃ r ∈ opcodeTable, r.selects w = true ∧ r.mnemonic = (decode w).mnemonic ∧
    ∀ r' ∈ opcodeTable, r'.selects w = true → r' = r) ∧
  (∀ x : EncWord, decode (.enc16 x) = .encode x)

/-- Decode and encode agree, for every operation at every operand value, on words and on bytes. The model's
choices: RESET and IDLE carry the fields of their words that they ignore, so these come back too (log 10);
an 18-bit word is carried as three bytes and a 16-bit word as two (log 8). -/
def Obligations.DecodeOfEncode : Prop :=
  ∀ i : Instr, decode (encode i) = i ∧ decodeBytes (bytesOfWord (encode i)) = .ok i

/-- Every word of either format is the word of the operation it decodes to: no word is left over. That the
ignored iv and s bits of RESET and IDLE words come back, so that no two words share a term, is the model's
choice: these operations carry the fields they ignore (log 10). -/
def Obligations.EncodeOfDecode : Prop :=
  ∀ w : PortWord, encode (decode w) = w

/-- The decoder on bytes accepts exactly the bytes of a word and rejects all others by name. The layout of
an 18-bit word in bytes is the model's choice (log 8). -/
def Obligations.OnlyBytesOfWordsDecode : Prop :=
  ∀ bs : List (BitVec 8),
    (∃ w, wordOfBytes bs = .ok w ∧ bytesOfWord w = bs) ∨
    (bs.length ≠ 2 ∧ bs.length ≠ 3 ∧ wordOfBytes bs = .error (.badLength bs.length)) ∨
    (∃ b0 b1 b2 : BitVec 8, bs = [b0, b1, b2] ∧ 4 ≤ b2.toNat ∧ wordOfBytes bs = .error .tooWide)

/-- 20_memory.md section 2: a sample carried as two bytes, bits 7:0 first and bits 15:8 second. That the
byte decoder reads two bytes as an ENC16 word is the model's choice (log 8). -/
def Obligations.SampleBytesLittleEndian : Prop :=
  ∀ x : Sample, ∃ lo hi : BitVec 8, sampleBytes x = [lo, hi] ∧
    x.toNat = lo.toNat + 256 * hi.toNat ∧ decodeBytes (sampleBytes x) = .ok (.encode x)

/-- 20_memory.md section 2: the bits a serial link sends in any order that names each bit once determine
the code. The order is the OPEN parameter CODE_BIT_ORDER (log 11). -/
def Obligations.SerialBitsDetermineCode : Prop :=
  ∀ (order : List (Fin 8)) (c d : Code), codeBitOrderWf order = true →
    (serialBits order c).length = 8 ∧ (serialBits order c = serialBits order d → c = d)

/-! ### The operations: what each gives, whole state -/

/-- R93: RESET clears the three registers and changes nothing else, whatever in_valid and in_sample are;
two in a row are as one; the next sample is at position 1 and is not emitted. -/
def Obligations.ResetClearsRegisters : Prop :=
  (∀ iv x s, exec (.reset iv x) s =
    .next { s with regs := { phase := false, outValid := false, outCode := 0x00 } }) ∧
  (∀ w : StepWord, w.getLsbD 17 = true → ∃ iv x, decode (.step18 w) = .reset iv x) ∧
  (∀ iv x iv' x' s t, exec (.reset iv x) s = .next t → exec (.reset iv' x') t = .next t) ∧
  (∀ iv x y s, ∃ t u, exec (.reset iv x) s = .next t ∧ exec (.sample y) t = .next u ∧
    u.stream = s.stream ∧ u.regs = { phase := true, outValid := false, outCode := 0x00 })

/-- R73: a SAMPLE at P = 1 emits its code and at P = 0 does not; P changes; nothing else does. -/
def Obligations.SampleAcceptsAndEmits : Prop :=
  (∀ x s, s.regs.phase = true → exec (.sample x) s =
    .next { s with regs := { phase := false, outValid := true, outCode := encoder s.cfg x },
                   stream := s.stream ++ [encoder s.cfg x] }) ∧
  (∀ x s, s.regs.phase = false → exec (.sample x) s =
    .next { s with regs := { phase := true, outValid := false, outCode := s.regs.outCode } }) ∧
  (∀ w : StepWord, w.getLsbD 17 = false → w.getLsbD 16 = true →
    decode (.step18 w) = .sample (w.extractLsb' 0 16))

/-- R74: IDLE clears out_valid and changes nothing else, whatever its s field. -/
def Obligations.IdleEndsPulse : Prop :=
  (∀ x s, exec (.idle x) s =
    .next { s with regs := { phase := s.regs.phase, outValid := false, outCode := s.regs.outCode } }) ∧
  (∀ w : StepWord, w.getLsbD 17 = false → w.getLsbD 16 = false → ∃ x, decode (.step18 w) = .idle x)

/-- R51: ENCODE under ENC_VARIANT = RESOLVED reads the code of the pseudocode on enc_out and changes no
register, in either realization; the pseudocode gives at most one code, and the codes of the rule's table. -/
def Obligations.EncodeFollowsPseudocode : Prop :=
  (∀ (x : Sample) (s : State), s.cfg.encVariant = .resolved →
    ∃ c, AlawStepsGive x.toInt c ∧
      exec (.encode x) s = .next { s with encOuts := s.encOuts ++ [c] }) ∧
  (∀ (v : Int) (c d : Code), AlawStepsGive v c → AlawStepsGive v d → c = d) ∧
  ∀ p ∈ ([(0, 0xD5), (-1, 0x55), (32767, 0xAA), (-32768, 0x2A), (255, 0xDA), (-256, 0x5A),
      (256, 0xC5), (-257, 0x45), (15, 0xD5), (16, 0xD4), (1000, 0xFA)] : List (Int × Code)),
    AlawStepsGive p.1 p.2

/-- 40_alaw_encoder.md section 5: under ENC_VARIANT = LITERAL_DOC the same steps apply to the sample
shifted right by 3, floor(v / 8). -/
def Obligations.LiteralEncodeFollowsShiftedSteps : Prop :=
  ∀ (x : Sample) (s : State), s.cfg.encVariant = .literalDoc →
    ∃ c, AlawStepsGive (Int.fdiv x.toInt 8) c ∧
      exec (.encode x) s = .next { s with encOuts := s.encOuts ++ [c] }

/-- 40_alaw_encoder.md section 7: enc_out is Encode of enc_in in any state, and an ENCODE and a step
operation in one step do not interact. The last is rendered as two steps of the model that commute, because
an ENCODE evaluation stands between two clock edges there: the model's reading (log 6). -/
def Obligations.EncoderPortIsIndependent : Prop :=
  (∀ (x : Sample) (s u : State), s.cfg = u.cfg → s.portEncOut x = u.portEncOut x) ∧
  (∀ (x : Sample) (s : State),
    exec (.encode x) s = .next { s with encOuts := s.encOuts ++ [encoder s.cfg x] }) ∧
  (∀ (i : Instr) (x : Sample) (s : State), (∀ y, i ≠ .encode y) →
    ∃ t u v, exec i s = .next t ∧ exec (.encode x) t = .next v ∧
      exec (.encode x) s = .next u ∧ exec i u = .next v)

/-- 41_decimator.md section 3: the code SAMPLE emits equals what enc_out gives for the same pattern. -/
def Obligations.StreamAndPortUseOneEncoder : Prop :=
  ∀ (x : Sample) (s : State), s.regs.phase = true →
    ∃ t u c, exec (.sample x) s = .next t ∧ exec (.encode x) s = .next u ∧
      t.stream = s.stream ++ [c] ∧ t.regs.outCode = c ∧ u.encOuts = s.encOuts ++ [c]

/-- 10_state.md section 1, the "written by" column, and the frames: P is written by RESET and SAMPLE only,
out_valid by RESET, SAMPLE and IDLE only, out_code by RESET and an emitting SAMPLE only, and no register by
ENCODE; the stream grows by an emitting SAMPLE only, the enc_out record by ENCODE only; no operation changes
the build, a ROM entry, the words still to come, or anything already recorded. -/
def Obligations.OperationsWriteOnlyTheirState : Prop :=
  ∀ (i : Instr) (s t : State), exec i s = .next t →
    t.cfg = s.cfg ∧ t.input = s.input ∧ s.stream <+: t.stream ∧ s.encOuts <+: t.encOuts ∧
    (∀ a : Sample, romRead t.cfg.encVariant a = romRead s.cfg.encVariant a) ∧
    (t.regs.phase ≠ s.regs.phase → (∃ iv x, i = .reset iv x) ∨ ∃ x, i = .sample x) ∧
    (t.regs.outValid ≠ s.regs.outValid →
      (∃ iv x, i = .reset iv x) ∨ (∃ x, i = .sample x) ∨ ∃ x, i = .idle x) ∧
    (t.regs.outCode ≠ s.regs.outCode →
      (∃ iv x, i = .reset iv x) ∨ (∃ x, i = .sample x) ∧ s.regs.phase = true) ∧
    (t.stream ≠ s.stream → (∃ x, i = .sample x) ∧ s.regs.phase = true) ∧
    (t.encOuts ≠ s.encOuts → ∃ x, i = .encode x) ∧
    ((∃ x, i = .encode x) → t.regs = s.regs)

/-- 60_exceptions.md sections 1 and 8: no operation has a condition under which it fails, traps or stalls.
That a step with no word applied does not fail either is the model's reading of the stopped clock (log 5). -/
def Obligations.NoOperationFails : Prop :=
  (∀ (i : Instr) (s : State), ∃ t, exec i s = .next t) ∧
  (∀ s : State, ∃ t, step s = .next t) ∧
  (∀ (k : Nat) (s : State), ∃ t, Runs k s t)

/-- R15: after a step, out_valid = 1 exactly when the step was a SAMPLE that emitted a code. -/
def Obligations.OutValidExactlyAfterEmission : Prop :=
  ∀ (w : StepWord) (rest : List PortWord) (s : State), s.input = .step18 w :: rest →
    ∃ t, step s = .next t ∧
      (t.portOutValid = true ↔ (∃ x, decode (.step18 w) = .sample x) ∧ s.regs.phase = true) ∧
      (t.portOutValid = true ↔ t.stream ≠ s.stream)

/-! ### The invariant -/

/-- The invariant holds right after reset. -/
def Obligations.InvariantAtReset : Prop := State.reset.Inv

/-- Every step keeps the invariant, from every state that meets it. -/
def Obligations.StepKeepsInvariant : Prop :=
  ∀ s t : State, s.Inv → step s = .next t → t.Inv

/-! ### The encoder -/

/-- R54: the segment table, T[i] = 2^(i+8) - 1. -/
def Obligations.SegmentTableThresholds : Prop :=
  segmentTable = [255, 511, 1023, 2047, 4095, 8191, 16383, 32767] ∧
  ∀ i, i < 8 → segmentTable[i]? = some (2 ^ (i + 8) - 1)

/-- 40_alaw_encoder.md section 2, sign-mask and magnitude: the mask follows bit 15, and the magnitude is
the 15 low bits, inverted for a negative sample; it is at most 32767. -/
def Obligations.SignAndMagnitudeBits : Prop :=
  ∀ x : Sample,
    signMask (sampleValue x) = (if x.getLsbD 15 then 0x55#8 else 0xD5#8) ∧
    magnitude (sampleValue x) = (magnitudeBits x).toNat ∧ magnitude (sampleValue x) ≤ 32767

/-- 40_alaw_encoder.md section 2, segment search: the index is the position of the leading 1 bit minus 7,
which a priority encoder on m[14:8] gives. -/
def Obligations.SegmentIsLeadingBitPosition : Prop :=
  ∀ m : BitVec 15,
    segmentOf m.toNat = some (if m.toNat ≤ 255 then 0 else Nat.log2 m.toNat - 7) ∧
    segmentOf m.toNat = some (segmentBits m)

/-- 40_alaw_encoder.md section 2, out of range: the branch gives 0x7F ^ mask where it is taken, no sample
takes it under either variant, and its value is that of segment 7 with q = 15. -/
def Obligations.OutOfRangeNeverTaken : Prop :=
  (∀ v : Int, segmentOf (magnitude v) = none → encodeResolved v = 0x7F ^^^ signMask v) ∧
  (∀ x : Sample, segmentOf (magnitude (sampleValue x)) ≠ none ∧
    segmentOf (magnitude (sampleValue x >>> (3 : Nat))) ≠ none) ∧
  combine 7 15 = 0x7F

/-- 40_alaw_encoder.md section 3: the bit-level form is the encoder, for all 65536 inputs. -/
def Obligations.BitFormIsEncoder : Prop :=
  ∀ x : Sample, encodeBits x = encodeResolved (sampleValue x)

/-- 40_alaw_encoder.md section 3: the 13-bit form, which keeps the shift and scales the thresholds, is the
encoder for every sample value. -/
def Obligations.ThirteenBitFormIsEncoder : Prop :=
  ∀ v : Int, InSampleRange v → encode13 v = encodeResolved v

/-- 30_encoding.md section 3: bit 7 of the code is 1 for a non-negative value, bits 6:4 ^ 0b101 are the
segment and bits 3:0 ^ 0b0101 the quantization field, under both variants. -/
def Obligations.CodeFieldsGiveSignSegmentStep : Prop :=
  ∀ (var : Config.EncVariant) (x : Sample),
    let v := match var with
      | .resolved => sampleValue x
      | .literalDoc => sampleValue x >>> (3 : Nat)
    (encodeSearch var (sampleValue x)).getLsbD 7 = decide (0 ≤ sampleValue x) ∧
    segmentOf (magnitude v) = some (codeSegment (encodeSearch var (sampleValue x))) ∧
    codeQuant (encodeSearch var (sampleValue x)) =
      quantField (codeSegment (encodeSearch var (sampleValue x))) (magnitude v)

/-- 40_alaw_encoder.md section 3, segment ranges: a code is produced exactly by the samples of its sign
whose magnitude lies in its step. -/
def Obligations.CodeIsOneStepOfMagnitudes : Prop :=
  ∀ (c : Code) (x : Sample),
    encodeResolved (sampleValue x) = c ↔
      c.getLsbD 7 = decide (0 ≤ sampleValue x) ∧
      segmentBase (codeSegment c) + codeQuant c * stepSize (codeSegment c) ≤
        magnitude (sampleValue x) ∧
      magnitude (sampleValue x) <
        segmentBase (codeSegment c) + codeQuant c * stepSize (codeSegment c) + stepSize (codeSegment c)

/-- 40_alaw_encoder.md section 3: each byte is produced by 16 inputs in segments 0 and 1 and by
2^(seg+3) inputs in segment seg >= 2, so by at least one. -/
def Obligations.EveryByteProducedByOneStepOfInputs : Prop :=
  ∀ c : Code,
    (Finset.univ.filter fun a : Fin 65536 =>
      encodeResolved (sampleValue (BitVec.ofFin a)) = c).card = stepSize (codeSegment c)

/-- 40_alaw_encoder.md section 3: a value and its complement differ in bit 7 of the code only. -/
def Obligations.SignSymmetry : Prop :=
  (∀ v : Int, 0 ≤ v → v ≤ 32767 → encodeResolved (-v - 1) = encodeResolved v ^^^ 0x80) ∧
  (∀ (var : Config.EncVariant) (x : Sample),
    encodeSearch var (sampleValue (~~~x)) = encodeSearch var (sampleValue x) ^^^ 0x80)

/-- 40_alaw_encoder.md section 3: the segment is monotonic in the magnitude (shift k = 0 is RESOLVED, k = 3
LITERAL_DOC), and not in the true absolute value. -/
def Obligations.SegmentMonotonicInMagnitude : Prop :=
  (∀ (k : Nat) (v₁ v₂ : Int), InSampleRange v₁ → InSampleRange v₂ →
    magnitude (v₁ >>> k) ≤ magnitude (v₂ >>> k) →
    ∃ s₁ s₂, segmentOf (magnitude (v₁ >>> k)) = some s₁ ∧ segmentOf (magnitude (v₂ >>> k)) = some s₂ ∧
      s₁ ≤ s₂) ∧
  segmentOf (magnitude 256) = some 1 ∧ segmentOf (magnitude (-256)) = some 0

/-- R65: the ROM read and the segment search give the same byte for every input under either variant, and
the acceptance test passes exactly the tables whose every entry is the search's byte. -/
def Obligations.LutEqualsSearch : Prop :=
  (∀ (var : Config.EncVariant) (x : Sample),
    encoder { encVariant := var, encImpl := .lut } x =
      encoder { encVariant := var, encImpl := .search } x ∧
    encoder { encVariant := var, encImpl := .lut } x = encodeSearch var (sampleValue x)) ∧
  (∀ (var : Config.EncVariant) (table : List Code), acceptsTable var table = true ↔
    table.length = 65536 ∧
    ∀ x : Sample, table[romAddress x]? = some (encodeSearch var (sampleValue x)))

/-- 40_alaw_encoder.md section 4: ENC_IMPL is not observable: an operation on two machines that differ in
it only gives two machines that differ in it only. -/
def Obligations.EncImplIsNotObservable : Prop :=
  ∀ (impl : Config.EncImpl) (i : Instr) (s t : State), exec i s = .next t →
    exec i { s with cfg := { s.cfg with encImpl := impl } } =
      .next { t with cfg := { t.cfg with encImpl := impl } }

/-- 40_alaw_encoder.md section 5: the two variants agree exactly on [-16, 15]. -/
def Obligations.VariantsAgreeExactlyNearZero : Prop :=
  ∀ v : Int, InSampleRange v → (encodeLiteral v = encodeResolved v ↔ -16 ≤ v ∧ v ≤ 15)

/-- 40_alaw_encoder.md section 5: under LITERAL_DOC the magnitude is at most 4095, and the codes that occur
are exactly those of segments 0 to 4; the four values the section lists. -/
def Obligations.LiteralUsesLowSegmentsOnly : Prop :=
  (∀ x : Sample, magnitude (sampleValue x >>> (3 : Nat)) ≤ 4095) ∧
  (∀ c : Code, (∃ x : Sample, encodeLiteral (sampleValue x) = c) ↔ codeSegment c ≤ 4) ∧
  encodeLiteral 0 = 0xD5 ∧ encodeLiteral (-1) = 0x55 ∧
  encodeLiteral 32767 = 0x9A ∧ encodeLiteral (-32768) = 0x1A

/-- 40_alaw_encoder.md section 6: the two saturated codes, segment 7 from 16384 on, and where the largest
step of it begins on either side. -/
def Obligations.SaturationOfLargestMagnitudes : Prop :=
  encodeResolved 32767 = 0xAA ∧ encodeResolved (-32768) = 0x2A ∧
  (∀ v : Int, 16384 ≤ v → v ≤ 32767 → codeSegment (encodeResolved v) = 7) ∧
  (∀ v : Int, InSampleRange v →
    ((codeSegment (encodeResolved v) = 7 ∧ codeQuant (encodeResolved v) = 15) ↔
      (31744 ≤ v ∨ v ≤ -31745)))

/-- 93_implementation_defined.md part 2: with the expansion given there for testing, every sample comes
back within half a step of its segment. The expansion is PRESUMED, from general knowledge (log 12). -/
def Obligations.ExpansionWithinHalfStep : Prop :=
  ∀ x : Sample,
    2 * (expand (encodeResolved (sampleValue x)) - sampleValue x).natAbs ≤
      stepSize (codeSegment (encodeResolved (sampleValue x)))

/-! ### Runs: the decimator and the output stream

`Runs k` counts a word of either format as one step of the model. That the ENC16 words among them, which
pass no clock edge, count too is the model's reading (log 6). -/

/-- 41_decimator.md section 1: Decimate keeps positions 2, 4, ..., in order: its length is half the input's,
and output[k] is input[2k+1]. -/
def Obligations.DecimateKeepsEverySecond : Prop :=
  ∀ xs : List Sample, (decimate xs).length = xs.length / 2 ∧
    ∀ k, k < xs.length / 2 → (decimate xs)[k]? = xs[2 * k + 1]?

/-- 60_exceptions.md section 7: decimating in two chunks keeps the same samples exactly when the first has
an even length; after an odd one the second starts at position 2. -/
def Obligations.ChunksDecimateAloneOnlyAtEvenLength : Prop :=
  (∀ xs ys : List Sample, xs.length % 2 = 0 → decimate (xs ++ ys) = decimate xs ++ decimate ys) ∧
  (∀ xs ys : List Sample, ∀ d : Sample, xs.length % 2 = 1 →
    decimate (xs ++ ys) = decimate xs ++ decimate (d :: ys)) ∧
  (∀ xs : List Sample, xs.length % 2 = 1 →
    ∃ ys : List Sample, decimate (xs ++ ys) ≠ decimate xs ++ decimate ys)

/-- 70_reset_and_hazards.md section 5: a run over any words ends with a next state in which they are
consumed, the build is the same, and the enc_out values are those of its ENCODE evaluations, in order. -/
def Obligations.RunConsumesWordsAndRecordsEncOuts : Prop :=
  ∀ (s : State) (ws rest : List PortWord), s.input = ws ++ rest →
    ∃ t, Runs ws.length s t ∧ t.input = rest ∧ t.cfg = s.cfg ∧
      t.encOuts = s.encOuts ++ (encodesOf ws).map (encoder s.cfg)

/-- 10_state.md section 1: P is the parity of the samples accepted since the last RESET. -/
def Obligations.PhaseIsParityOfSamplesSinceReset : Prop :=
  ∀ (s : State) (r : PortWord) (ws rest : List PortWord), isReset r = true → NoReset ws →
    s.input = r :: (ws ++ rest) →
    ∃ t, Runs (ws.length + 1) s t ∧ t.regs.phase = decide ((samplesOf ws).length % 2 = 1)

/-- 41_decimator.md section 3, the stream law: after a RESET, the codes emitted for words with no further
RESET are Encode of every second sample, whatever IDLE steps and ENCODE evaluations stand between. -/
def Obligations.StreamLawAfterReset : Prop :=
  ∀ (s : State) (r : PortWord) (ws rest : List PortWord), isReset r = true → NoReset ws →
    s.input = r :: (ws ++ rest) →
    ∃ t, Runs (ws.length + 1) s t ∧ t.input = rest ∧
      t.stream = s.stream ++ (decimate (samplesOf ws)).map (encoder s.cfg)

/-- 70_reset_and_hazards.md section 2, batch boundaries: without a RESET the phase carries over: words met
at P = 1 are decimated as if one sample, d, had come before them. -/
def Obligations.PhaseCarriesOverWithoutReset : Prop :=
  ∀ (s : State) (ws rest : List PortWord) (d : Sample), NoReset ws → s.input = ws ++ rest →
    ∃ t, Runs ws.length s t ∧
      t.stream = s.stream ++
        (decimate (if s.regs.phase then d :: samplesOf ws else samplesOf ws)).map (encoder s.cfg)

/-- R16: out_code holds the newest code emitted since the last RESET, or 0x00; a SAMPLE that does not emit
and an IDLE leave it unchanged. -/
def Obligations.OutCodeIsNewestSinceReset : Prop :=
  (∀ (s : State) (r : PortWord) (ws rest : List PortWord), isReset r = true → NoReset ws →
    s.input = r :: (ws ++ rest) →
    ∃ t codes, Runs (ws.length + 1) s t ∧ t.stream = s.stream ++ codes ∧
      t.portOutCode = codes.getLastD 0x00) ∧
  (∀ (x : Sample) (s : State), s.regs.phase = false →
    ∃ t, exec (.sample x) s = .next t ∧ t.portOutCode = s.portOutCode) ∧
  (∀ (x : Sample) (s : State), ∃ t, exec (.idle x) s = .next t ∧ t.portOutCode = s.portOutCode)

/-- 41_decimator.md section 3: IDLE steps put anywhere into a run change neither the stream, nor P,
out_code or the enc_out values at its end. -/
def Obligations.IdleStepsAreTransparent : Prop :=
  ∀ (s : State) (before idles after rest : List PortWord), AllIdle idles →
    ∃ t u, Runs (before.length + after.length) { s with input := before ++ after ++ rest } t ∧
      Runs (before.length + idles.length + after.length)
        { s with input := before ++ idles ++ after ++ rest } u ∧
      t.stream = u.stream ∧ t.regs.phase = u.regs.phase ∧ t.regs.outCode = u.regs.outCode ∧
      t.encOuts = u.encOuts ∧ t.input = u.input

/-- 20_memory.md section 5 and 70_reset_and_hazards.md section 2: from any state, RESETs or not, the codes a
run emits are codes of accepted samples in the order these came in. -/
def Obligations.EmittedCodesKeepInputOrder : Prop :=
  ∀ (s : State) (ws rest : List PortWord), s.input = ws ++ rest →
    ∃ t codes, Runs ws.length s t ∧ t.stream = s.stream ++ codes ∧
      codes.Sublist ((samplesOf ws).map (encoder s.cfg))

/-- 41_decimator.md section 3: the block emits what a decimator with a position counter of any width k >= 1
emits, RESETs included. -/
def Obligations.CounterOfAnyWidthGivesTheSameStream : Prop :=
  ∀ (k n : Nat) (s : State) (ws rest : List PortWord), 1 ≤ k →
    s.regs.phase = decide (n % 2 = 1) → s.input = ws ++ rest →
    ∃ t, Runs ws.length s t ∧ t.stream = s.stream ++ emittedByCounter (encoder s.cfg) k n ws

/-- 41_decimator.md section 3: decimation depends on position only: two runs over words of the same
operations whose sample values differ in any way end with the same P and out_valid and have emitted the
same number of codes. -/
def Obligations.SampleValuesNeverMoveThePhase : Prop :=
  ∀ (s : State) (ws vs rest : List PortWord),
    ws.map (fun w => (decode w).mnemonic) = vs.map (fun w => (decode w).mnemonic) →
    ∃ t u, Runs ws.length { s with input := ws ++ rest } t ∧
      Runs vs.length { s with input := vs ++ rest } u ∧
      t.regs.phase = u.regs.phase ∧ t.regs.outValid = u.regs.outValid ∧
      t.stream.length = u.stream.length

/-- 70_reset_and_hazards.md section 3: a consumer that captures the ports at every step edge of a run and
looks once more at its end (the model's reading of the consumer, log 15: at an edge it sees the registers as
the step before left them, and an ENCODE has no edge) has the code on the ports at the start, if any, and then exactly the codes the
run emits, RESETs included: each code is on the ports for one step, and a RESET hides none. -/
def Obligations.ConsumerCapturesEveryCode : Prop :=
  ∀ (k : Nat) (s : State),
    ∃ t, Runs k s t ∧ capture k s = portCode s ++ t.stream.drop s.stream.length

/-! ### The assembler -/

/-- 30_encoding.md section 6: a decimal operand outside [-32768, 32767] is refused wherever it stands;
every in-range decimal has a pattern of that value, which SAMPLE, STEP and ENCODE lines place in their
words; a hexadecimal operand is its pattern; RESET and IDLE lines give 0x20000 and 0x00000. -/
def Obligations.AssemblerRefusesWhatItWouldWrap : Prop :=
  (∀ v : Int, ¬ InSampleRange v → assemble (.sample (.dec v)) = .error .outOfRange ∧
    assemble (.encode (.dec v)) = .error .outOfRange ∧
    (∀ r i, assemble (.step r i (.dec v)) = .error .outOfRange) ∧
    ∀ vs, AsmOperand.dec v ∈ vs → assemble (.samples vs) = .error .outOfRange) ∧
  (∀ v : Int, InSampleRange v → ∃ x : Sample, sampleValue x = v ∧
    assemble (.sample (.dec v)) = .ok [stepOf false true x] ∧
    assemble (.encode (.dec v)) = .ok [.enc16 x] ∧
    ∀ r i, assemble (.step r i (.dec v)) = .ok [stepOf r i x]) ∧
  (∀ x : Sample, assemble (.sample (.hex x)) = .ok [stepOf false true x] ∧
    assemble (.encode (.hex x)) = .ok [.enc16 x] ∧
    ∀ r i, assemble (.step r i (.hex x)) = .ok [stepOf r i x]) ∧
  assemble .reset = .ok [.step18 0x20000] ∧ assemble .idle = .ok [.step18 0x00000]

/-- R48: the pseudo-operations expand to SAMPLE lines and IDLE lines, for n >= 1. -/
def Obligations.PseudoOperationsExpand : Prop :=
  (∀ vs : List AsmOperand, vs ≠ [] → (∀ v ∈ vs, v.wf = true) →
    ∃ parts : List (List PortWord), parts.map Except.ok = vs.map (fun v => assemble (.sample v)) ∧
      assemble (.samples vs) = .ok parts.flatten) ∧
  (∀ n : Nat, 1 ≤ n → ∃ w, assemble .idle = .ok [w] ∧ assemble (.idles n) = .ok (List.replicate n w)) ∧
  assemble (.samples []) = .error .emptyCount ∧ assemble (.idles 0) = .error .emptyCount

/-- 30_encoding.md section 6: a STEP18 word prints as RESET when rst = 1, as SAMPLE of the value of its s
field when rst = 0 and iv = 1, and as IDLE otherwise; the line any word prints as is assembled to one
canonical word, which prints the same and has the same effect. The section speaks of STEP18 words only: that
an ENC16 word prints as ENCODE of its value is the model's reading (log 13). -/
def Obligations.DisassembledLineHasSameEffect : Prop :=
  (∀ iv x, disassemble (stepOf true iv x) = .reset) ∧
  (∀ x, disassemble (stepOf false true x) = .sample (.dec x.toInt)) ∧
  (∀ x, disassemble (stepOf false false x) = .idle) ∧
  (∀ x : EncWord, disassemble (.enc16 x) = .encode (.dec x.toInt)) ∧
  ∀ w : PortWord, ∃ w', assemble (disassemble w) = .ok [w'] ∧
    (decode w').canonical = true ∧ disassemble w' = disassemble w ∧
    ∀ s : State, exec (decode w') s = exec (decode w) s
end

