-- ==== Sys2Proof/Laws/Decode.lean ====
section
/-! SUPPORT. The small lemmas of the decoder and of the bytes of a word. -/

namespace Sys2Proof

theorem decodeStep_of_rst {w : StepWord} (h : w.getLsbD 17 = true) :
    decodeStep w = .reset (w.getLsbD 16) (w.extractLsb' 0 16) := by
  rw [decodeStep, if_pos h]

theorem decodeStep_of_valid {w : StepWord} (h : w.getLsbD 17 = false) (hv : w.getLsbD 16 = true) :
    decodeStep w = .sample (w.extractLsb' 0 16) := by
  rw [decodeStep, if_neg (by simp only [h]; decide), if_pos hv]

theorem decodeStep_of_neither {w : StepWord} (h : w.getLsbD 17 = false) (hv : w.getLsbD 16 = false) :
    decodeStep w = .idle (w.extractLsb' 0 16) := by
  rw [decodeStep, if_neg (by simp only [h]; decide), if_neg (by simp only [hv]; decide)]

@[simp] theorem decode_step18 (w : StepWord) : decode (.step18 w) = decodeStep w := rfl

@[simp] theorem decode_enc16 (w : EncWord) : decode (.enc16 w) = .encode w := rfl

@[simp] theorem leBytes_length (n w : Nat) : (leBytes n w).length = n := by
  induction n generalizing w with
  | zero => rfl
  | succ n ih => simp [leBytes, ih]

end Sys2Proof
end

