-- ==== Sys2Proof/Laws/Encoder.lean ====
section
/-! SUPPORT. The small lemmas of the encoder's steps. -/

namespace Sys2Proof.Machine

theorem signMask_of_nonneg {v : Int} (h : 0 ≤ v) : signMask v = 0xD5 := by simp [signMask, h]

theorem signMask_of_neg {v : Int} (h : v < 0) : signMask v = 0x55 := by
  simp [signMask, Int.not_le.mpr h]

theorem magnitude_of_nonneg {v : Int} (h : 0 ≤ v) : (magnitude v : Int) = v := by
  simp only [magnitude, if_pos h]; omega

theorem magnitude_of_neg {v : Int} (h : v < 0) : (magnitude v : Int) = -v - 1 := by
  simp only [magnitude, if_neg (Int.not_le.mpr h)]; omega

/-- v and its complement -(v) - 1 have one magnitude. -/
theorem magnitude_complement (v : Int) : magnitude (-v - 1) = magnitude v := by
  unfold magnitude; split <;> split <;> omega

theorem sampleValue_bounds (x : Sample) : -32768 ≤ sampleValue x ∧ sampleValue x ≤ 32767 := by
  have h₁ := BitVec.le_toInt x
  have h₂ := BitVec.toInt_lt (x := x)
  simp only [sampleValue]
  omega

/-- The segment of a magnitude, one case per segment. -/
theorem segment_cases (m : Nat) :
    (m ≤ 255 ∧ segmentOf m = some 0) ∨
    (256 ≤ m ∧ m ≤ 511 ∧ segmentOf m = some 1) ∨
    (512 ≤ m ∧ m ≤ 1023 ∧ segmentOf m = some 2) ∨
    (1024 ≤ m ∧ m ≤ 2047 ∧ segmentOf m = some 3) ∨
    (2048 ≤ m ∧ m ≤ 4095 ∧ segmentOf m = some 4) ∨
    (4096 ≤ m ∧ m ≤ 8191 ∧ segmentOf m = some 5) ∨
    (8192 ≤ m ∧ m ≤ 16383 ∧ segmentOf m = some 6) ∨
    (16384 ≤ m ∧ m ≤ 32767 ∧ segmentOf m = some 7) ∨
    (32768 ≤ m ∧ segmentOf m = none) := by
  by_cases h0 : m ≤ 255
  · exact .inl ⟨h0, by simp [segmentOf, segmentTable, List.findIdx?_cons, h0]⟩
  refine .inr ?_
  by_cases h1 : m ≤ 511
  · exact .inl ⟨by omega, h1, by simp [segmentOf, segmentTable, List.findIdx?_cons, h0, h1]⟩
  refine .inr ?_
  by_cases h2 : m ≤ 1023
  · exact .inl ⟨by omega, h2, by simp [segmentOf, segmentTable, List.findIdx?_cons, h0, h1, h2]⟩
  refine .inr ?_
  by_cases h3 : m ≤ 2047
  · exact .inl ⟨by omega, h3, by simp [segmentOf, segmentTable, List.findIdx?_cons, h0, h1, h2, h3]⟩
  refine .inr ?_
  by_cases h4 : m ≤ 4095
  · exact .inl ⟨by omega, h4, by
      simp [segmentOf, segmentTable, List.findIdx?_cons, h0, h1, h2, h3, h4]⟩
  refine .inr ?_
  by_cases h5 : m ≤ 8191
  · exact .inl ⟨by omega, h5, by
      simp [segmentOf, segmentTable, List.findIdx?_cons, h0, h1, h2, h3, h4, h5]⟩
  refine .inr ?_
  by_cases h6 : m ≤ 16383
  · exact .inl ⟨by omega, h6, by
      simp [segmentOf, segmentTable, List.findIdx?_cons, h0, h1, h2, h3, h4, h5, h6]⟩
  refine .inr ?_
  by_cases h7 : m ≤ 32767
  · exact .inl ⟨by omega, h7, by
      simp [segmentOf, segmentTable, List.findIdx?_cons, h0, h1, h2, h3, h4, h5, h6, h7]⟩
  · exact .inr ⟨by omega, by
      simp [segmentOf, segmentTable, List.findIdx?_cons, h0, h1, h2, h3, h4, h5, h6, h7]⟩

/-- The quantization field as a quotient and a remainder. -/
theorem quantField_eq (seg m : Nat) :
    quantField seg m = if seg ≤ 1 then m / 16 % 16 else m / 2 ^ (seg + 3) % 16 := by
  unfold quantField
  split <;> rw [Nat.shiftRight_eq_div_pow] <;> exact Nat.and_two_pow_sub_one_eq_mod _ 4

theorem quantField_lt (seg m : Nat) : quantField seg m < 16 := by
  rw [quantField_eq]; split <;> exact Nat.mod_lt _ (by decide)

/-- A field of four bits fits below the segment index. -/
theorem combine_eq (seg q : Nat) (h : q < 16) : combine seg q = BitVec.ofNat 8 (seg * 16 + q) := by
  unfold combine
  rw [Nat.shiftLeft_eq, ← Nat.shiftLeft_eq, ← Nat.shiftLeft_add_eq_or_of_lt (i := 4) (by simpa using h),
    Nat.shiftLeft_eq]

theorem encodeResolved_of_segment {v : Int} {seg : Nat} (h : segmentOf (magnitude v) = some seg) :
    encodeResolved v = combine seg (quantField seg (magnitude v)) ^^^ signMask v := by
  simp [encodeResolved, h]

end Sys2Proof.Machine
end

