-- ==== Sys2Proof/Laws/State.lean ====
section
/-! SUPPORT. One lemma per field per update of State, and the fields of the state after reset. -/

namespace Sys2Proof.Machine.State

variable (s : State)

@[simp] theorem writeRegs_regs (r : Regs) : (s.writeRegs r).regs = r := rfl
@[simp] theorem writeRegs_cfg (r : Regs) : (s.writeRegs r).cfg = s.cfg := rfl
@[simp] theorem writeRegs_input (r : Regs) : (s.writeRegs r).input = s.input := rfl
@[simp] theorem writeRegs_stream (r : Regs) : (s.writeRegs r).stream = s.stream := rfl
@[simp] theorem writeRegs_encOuts (r : Regs) : (s.writeRegs r).encOuts = s.encOuts := rfl

@[simp] theorem emit_regs (c : Code) : (s.emit c).regs = s.regs := rfl
@[simp] theorem emit_cfg (c : Code) : (s.emit c).cfg = s.cfg := rfl
@[simp] theorem emit_input (c : Code) : (s.emit c).input = s.input := rfl
@[simp] theorem emit_stream (c : Code) : (s.emit c).stream = s.stream ++ [c] := rfl
@[simp] theorem emit_encOuts (c : Code) : (s.emit c).encOuts = s.encOuts := rfl

@[simp] theorem observeEncOut_regs (c : Code) : (s.observeEncOut c).regs = s.regs := rfl
@[simp] theorem observeEncOut_cfg (c : Code) : (s.observeEncOut c).cfg = s.cfg := rfl
@[simp] theorem observeEncOut_input (c : Code) : (s.observeEncOut c).input = s.input := rfl
@[simp] theorem observeEncOut_stream (c : Code) : (s.observeEncOut c).stream = s.stream := rfl
@[simp] theorem observeEncOut_encOuts (c : Code) : (s.observeEncOut c).encOuts = s.encOuts ++ [c] := rfl

@[simp] theorem withInput_regs (ws : List PortWord) : (s.withInput ws).regs = s.regs := rfl
@[simp] theorem withInput_cfg (ws : List PortWord) : (s.withInput ws).cfg = s.cfg := rfl
@[simp] theorem withInput_input (ws : List PortWord) : (s.withInput ws).input = ws := rfl
@[simp] theorem withInput_stream (ws : List PortWord) : (s.withInput ws).stream = s.stream := rfl
@[simp] theorem withInput_encOuts (ws : List PortWord) : (s.withInput ws).encOuts = s.encOuts := rfl

@[simp] theorem reset_regs : State.reset.regs = Regs.afterReset := rfl
@[simp] theorem reset_cfg : State.reset.cfg = Config.defaultBuild := rfl
@[simp] theorem reset_input : State.reset.input = [] := rfl
@[simp] theorem reset_stream : State.reset.stream = [] := rfl
@[simp] theorem reset_encOuts : State.reset.encOuts = [] := rfl

end Sys2Proof.Machine.State

namespace Sys2Proof.Machine

@[simp] theorem Regs.afterReset_phase : Regs.afterReset.phase = false := rfl
@[simp] theorem Regs.afterReset_outValid : Regs.afterReset.outValid = false := rfl
@[simp] theorem Regs.afterReset_outCode : Regs.afterReset.outCode = 0x00 := rfl

end Sys2Proof.Machine
end

