-- ==== Sys2Proof/Laws/Ops.lean ====
section
/-! SUPPORT. What the shared operations can do, said once, and the inversion of `exec`. -/

namespace Sys2Proof.Machine

variable (s : State)

/-- An accepted sample at an even position. -/
theorem State.acceptSample_of_phase (x : Sample) (h : s.regs.phase = true) :
    s.acceptSample x =
      (s.writeRegs ⟨false, true, encoder s.cfg x⟩).emit (encoder s.cfg x) := by
  simp [State.acceptSample, emits, h]

/-- An accepted sample at an odd position. -/
theorem State.acceptSample_of_not_phase (x : Sample) (h : s.regs.phase = false) :
    s.acceptSample x = s.writeRegs ⟨true, false, s.regs.outCode⟩ := by
  simp [State.acceptSample, emits, h]

@[simp] theorem State.acceptSample_cfg (x : Sample) : (s.acceptSample x).cfg = s.cfg := by
  unfold State.acceptSample; split <;> rfl

@[simp] theorem State.acceptSample_input (x : Sample) : (s.acceptSample x).input = s.input := by
  unfold State.acceptSample; split <;> rfl

@[simp] theorem State.acceptSample_encOuts (x : Sample) : (s.acceptSample x).encOuts = s.encOuts := by
  unfold State.acceptSample; split <;> rfl

@[simp] theorem State.acceptSample_phase (x : Sample) :
    (s.acceptSample x).regs.phase = !s.regs.phase := by
  unfold State.acceptSample; split <;> rfl

@[simp] theorem State.acceptSample_outValid (x : Sample) :
    (s.acceptSample x).regs.outValid = s.regs.phase := by
  cases h : s.regs.phase <;> simp [State.acceptSample, emits, h]

theorem State.acceptSample_outCode (x : Sample) :
    (s.acceptSample x).regs.outCode =
      if s.regs.phase then encoder s.cfg x else s.regs.outCode := by
  cases h : s.regs.phase <;> simp [State.acceptSample, emits, h]

theorem State.acceptSample_stream (x : Sample) :
    (s.acceptSample x).stream =
      s.stream ++ if s.regs.phase then [encoder s.cfg x] else [] := by
  cases h : s.regs.phase <;> simp [State.acceptSample, emits, h]

@[simp] theorem State.noSample_regs : s.noSample.regs = { s.regs with outValid := false } := rfl
@[simp] theorem State.noSample_cfg : s.noSample.cfg = s.cfg := rfl
@[simp] theorem State.noSample_input : s.noSample.input = s.input := rfl
@[simp] theorem State.noSample_stream : s.noSample.stream = s.stream := rfl
@[simp] theorem State.noSample_encOuts : s.noSample.encOuts = s.encOuts := rfl

theorem State.takeWord_of_cons {w : PortWord} {rest : List PortWord} (h : s.input = w :: rest) :
    s.takeWord = some (w, s.withInput rest) := by
  simp [State.takeWord, h]

theorem State.takeWord_of_nil (h : s.input = []) : s.takeWord = none := by
  simp [State.takeWord, h]

/-- Everything an operation can do: each answers exactly one next state. -/
theorem exec_next_cases {i : Instr} {s t : State} (h : exec i s = .next t) :
    (∃ iv x, i = .reset iv x ∧ t = s.writeRegs Regs.afterReset) ∨
    (∃ x, i = .sample x ∧ t = s.acceptSample x) ∨
    (∃ x, i = .idle x ∧ t = s.noSample) ∨
    (∃ x, i = .encode x ∧ t = s.observeEncOut (encoder s.cfg x)) := by
  cases i with
  | reset iv x => cases h; exact .inl ⟨iv, x, rfl, rfl⟩
  | sample x => cases h; exact .inr (.inl ⟨x, rfl, rfl⟩)
  | idle x => cases h; exact .inr (.inr (.inl ⟨x, rfl, rfl⟩))
  | encode x => cases h; exact .inr (.inr (.inr ⟨x, rfl, rfl⟩))

end Sys2Proof.Machine
end

