-- ==== Sys2Proof/Laws/PerInstr.lean ====
section
/-! SUPPORT. The family RowMatch: the word of every operation agrees with the operation's own row of the
opcode table. -/

namespace Sys2Proof.Laws.RowMatch

/-- Some row of the table carries the operation's mnemonic and selects the operation's word. -/
def Statement (i : Instr) : Prop :=
  ∃ r ∈ opcodeTable, r.mnemonic = i.mnemonic ∧ r.selects (encode i) = true

/-- A mask of bits 17 and 16 sees the two top fields of a word {r, i, x} only. -/
theorem mask_top (r i p q : Bool) (x : Sample) :
    ((BitVec.ofBool r ++ BitVec.ofBool i ++ x : StepWord) &&&
        (BitVec.ofBool p ++ BitVec.ofBool q ++ 0#16 : StepWord)) =
      (BitVec.ofBool (r && p) ++ BitVec.ofBool (i && q) ++ 0#16 : StepWord) := by
  simp only [BitVec.and_append, BitVec.and_zero, BitVec.ofBool_and_ofBool]

theorem reset (iv : Bool) (x : Sample) : Statement (.reset iv x) := by
  refine ⟨_, List.mem_cons_self, rfl, ?_⟩
  have h := congrArg BitVec.toNat (mask_top true iv true false x)
  simp only [Bool.and_true, Bool.and_false, BitVec.toNat_and] at h
  exact beq_iff_eq.mpr h

theorem sample (x : Sample) : Statement (.sample x) := by
  refine ⟨_, List.mem_cons_of_mem _ List.mem_cons_self, rfl, ?_⟩
  have h := congrArg BitVec.toNat (mask_top false true true true x)
  simp only [Bool.and_true, BitVec.toNat_and] at h
  exact beq_iff_eq.mpr h

theorem idle (x : Sample) : Statement (.idle x) := by
  refine ⟨_, List.mem_cons_of_mem _ (List.mem_cons_of_mem _ List.mem_cons_self), rfl, ?_⟩
  have h := congrArg BitVec.toNat (mask_top false false true true x)
  simp only [Bool.and_true, BitVec.toNat_and] at h
  exact beq_iff_eq.mpr h

theorem encode (x : Sample) : Statement (.encode x) :=
  ⟨_, List.mem_cons_of_mem _ (List.mem_cons_of_mem _ (List.mem_cons_of_mem _ List.mem_cons_self)), rfl,
    beq_iff_eq.mpr (Nat.and_zero _)⟩

end Sys2Proof.Laws.RowMatch
end

