-- ==== Sys2Proof/Laws/Reference.lean ====
section
/-! SUPPORT. The equations of the reference functions on lists. -/

namespace Sys2Proof.Machine

@[simp] theorem decimate_nil {α : Type} : decimate ([] : List α) = [] := rfl
@[simp] theorem decimate_singleton {α : Type} (a : α) : decimate [a] = [] := rfl
@[simp] theorem decimate_cons_cons {α : Type} (a b : α) (l : List α) :
    decimate (a :: b :: l) = b :: decimate l := rfl

@[simp] theorem samplesOf_nil : samplesOf [] = [] := rfl

theorem samplesOf_append (ws vs : List PortWord) :
    samplesOf (ws ++ vs) = samplesOf ws ++ samplesOf vs := by
  simp [samplesOf]

theorem samplesOf_cons_sample {w : PortWord} {x : Sample} (ws : List PortWord)
    (h : decode w = .sample x) : samplesOf (w :: ws) = x :: samplesOf ws := by
  simp [samplesOf, h]

theorem samplesOf_cons_other {w : PortWord} (ws : List PortWord)
    (h : ∀ x, decode w ≠ .sample x) : samplesOf (w :: ws) = samplesOf ws := by
  unfold samplesOf
  rw [List.filterMap_cons_none]
  cases hd : decode w with
  | sample x => exact absurd hd (h x)
  | reset _ _ => rfl
  | idle _ => rfl
  | encode _ => rfl

end Sys2Proof.Machine
end

