-- ==== Sys2Proof/Laws/Run.lean ====
section
/-! SUPPORT. How runs of the machine are built from steps. -/

namespace Sys2Proof.Machine

/-- One step and then k steps of any machine are k + 1 steps. -/
theorem run_succ_of_step (M : Host.Core) {k : Nat} {s t : M.State}
    {r : Host.Outcome M.State M.Fault M.Refusal} (h : M.step s = .next t) (hr : M.run k t = r) :
    M.run (k + 1) s = r := by
  unfold Host.Core.run
  rw [h]
  exact hr

theorem runs_zero (s : State) : Runs 0 s s := rfl

/-- A step and a run of k steps are a run of k + 1 steps. -/
theorem runs_succ {k : Nat} {s t u : State} (h : step s = .next t) (hr : Runs k t u) :
    Runs (k + 1) s u :=
  run_succ_of_step Sys2Proof.core h hr

/-- A run has one end. -/
theorem runs_unique {k : Nat} {s t u : State} (ht : Runs k s t) (hu : Runs k s u) : t = u := by
  have h := ht.symm.trans hu
  injection h

end Sys2Proof.Machine
end

