-- ==== Sys2Proof/Tests/Slice0.lean ====
section
/-! SUPPORT. Tests of the definitions, with results from 95_test_vectors.md and the examples of the rules,
the smoke tests of WellFormed, and a witness for the hypotheses of each statement that has some. -/

open Sys2Proof Sys2Proof.Machine Sys2Proof.Claims

namespace Sys2Proof.Tests

/-- The machine with the registers {P, out_valid, out_code} and nothing pending. -/
def withRegs (p v : Bool) (c : Code) : State :=
  { State.reset with regs := { phase := p, outValid := v, outCode := c } }

/-- The registers after one step over the word w. -/
def regsAfter (s : State) (w : PortWord) : Option Regs :=
  match step (s.presentWord w) with
  | .next t => some t.regs
  | .fault _ => none
  | .refused _ => none

/-- The codes recorded after one step over the word w: the stream and the enc_out values. -/
def recordAfter (s : State) (w : PortWord) : Option (List Code × List Code) :=
  match step (s.presentWord w) with
  | .next t => some (t.stream, t.encOuts)
  | .fault _ => none
  | .refused _ => none

/-! ### Well-formedness smoke tests: each check refuses an ill-formed term -/

theorem test_wf_refuses_decimal_above_range : (AsmOperand.dec 32768).wf = false := by decide
theorem test_wf_refuses_decimal_below_range : (AsmOperand.dec (-32769)).wf = false := by decide
theorem test_wf_admits_range_ends :
    (AsmOperand.dec 32767).wf = true ∧ (AsmOperand.dec (-32768)).wf = true := by decide
theorem test_wf_refuses_sample_line : (AsmLine.sample (.dec 40000)).wf = false := by decide
theorem test_wf_refuses_step_line : (AsmLine.step true false (.dec 40000)).wf = false := by decide
theorem test_wf_refuses_encode_line : (AsmLine.encode (.dec (-40000))).wf = false := by decide
theorem test_wf_refuses_no_samples : (AsmLine.samples []).wf = false := by decide
theorem test_wf_refuses_a_bad_sample_in_samples :
    (AsmLine.samples [.dec 1, .dec 65536]).wf = false := by decide
theorem test_wf_refuses_zero_idles : (AsmLine.idles 0).wf = false := by decide
theorem test_wf_refuses_noncanonical_reset : (Instr.reset true 0).canonical = false := by decide
theorem test_wf_refuses_noncanonical_idle : (Instr.idle 1).canonical = false := by decide
theorem test_wf_refuses_short_bit_order : codeBitOrderWf [0, 1, 2] = false := by decide
theorem test_wf_refuses_repeated_bit_order : codeBitOrderWf [0, 1, 2, 3, 4, 5, 6, 6] = false := by decide

/-! ### Decoding, from words written out bit by bit (30_encoding.md R38, R50; 95_test_vectors.md 2.6) -/

theorem test_decode_reset : decode (.step18 0b100000000000000000#18) = .reset false 0 := by decide
theorem test_decode_reset_drops_sample :
    decode (.step18 0b111111111111111111#18) = .reset true 0xFFFF := by decide
theorem test_decode_sample_two : decode (.step18 0b010000000000000010#18) = .sample 2 := by decide
theorem test_decode_sample_lowest :
    decode (.step18 0b011000000000000000#18) = .sample 0x8000 := by decide
theorem test_decode_idle : decode (.step18 0b000000000000000000#18) = .idle 0 := by decide
theorem test_decode_idle_ignores_field :
    decode (.step18 0b001111111111111111#18) = .idle 0xFFFF := by decide
theorem test_decode_encode : decode (.enc16 0b1000000000000000#16) = .encode 0x8000 := by decide
theorem test_encode_words :
    encode (.reset true 0xFFFF) = .step18 0x3FFFF ∧ encode (.sample 1000) = .step18 0x103E8 ∧
    encode (.idle 0) = .step18 0x00000 ∧ encode (.encode 0x8000) = .enc16 0x8000 := by decide
theorem test_decode_bytes :
    (decodeBytes [0xE8, 0x03, 0x01]).toOption = some (.sample 1000) ∧
    (decodeBytes [0x00, 0x80]).toOption = some (.encode 0x8000) := by decide
theorem test_decode_bytes_rejects :
    (decodeBytes [0, 0, 4]).toOption = none ∧ (decodeBytes [0]).toOption = none ∧
    (decodeBytes [0, 0, 0, 0]).toOption = none := by decide
theorem test_table_words :
    decodeTableWord 24 0x20000 = some (.reset false 0) ∧
    decodeTableWord 24 0x10002 = some (.sample 2) ∧ decodeTableWord 24 0 = some (.idle 0) ∧
    decodeTableWord 16 0 = some (.encode 0) ∧ decodeTableWord 24 0x40000 = none := by decide

/-! ### The encoder (95_test_vectors.md 1, 2.1, 2.2) -/

/-- The ends of every segment, both signs, the source's own examples among them. -/
theorem test_segment_edges :
    [(0, 0xD5), (-1, 0x55), (255, 0xDA), (-256, 0x5A), (256, 0xC5), (-257, 0x45), (511, 0xCA),
      (-512, 0x4A), (512, 0xF5), (-513, 0x75), (1023, 0xFA), (-1024, 0x7A), (1024, 0xE5), (-1025, 0x65),
      (2047, 0xEA), (-2048, 0x6A), (2048, 0x95), (-2049, 0x15), (4095, 0x9A), (-4096, 0x1A),
      (4096, 0x85), (-4097, 0x05), (8191, 0x8A), (-8192, 0x0A), (8192, 0xB5), (-8193, 0x35),
      (16383, 0xBA), (-16384, 0x3A), (16384, 0xA5), (-16385, 0x25), (32767, 0xAA), (-32768, 0x2A)].all
      (fun p : Int × Code => encodeResolved p.1 == p.2) = true := by decide

theorem test_literal_values :
    [(16, 0xD5), (1000, 0xD2), (-1000, 0x52), (3000, 0xC2), (-4097, 0x75), (12345, 0xED),
      (-20000, 0x16), (32767, 0x9A), (-32768, 0x1A)].all
      (fun p : Int × Code => encodeLiteral p.1 == p.2) = true := by decide

theorem test_bit_form_and_13_bit_form :
    encodeBits 0x3039 = 0xBD ∧ encodeBits 0xF448 = 0x12 ∧ encode13 12345 = 0xBD ∧
    encode13 (-3000) = 0x12 := by decide

/-- Entry 0x8000 of the ROM holds the code of -32768. -/
theorem test_rom_entry : encoder { encVariant := .resolved, encImpl := .lut } 0x8000 = 0x2A := by
  have h : romRead .resolved 0x8000 = encodeSearch .resolved (sampleValue 0x8000) := by
    simp [romRead, romTable, romAddress]
  simp only [encoder, h]
  decide

/-! ### Single steps (95_test_vectors.md 2.7 and 2.8) -/

theorem test_sample_at_odd_position :
    regsAfter (withRegs false false 0x00) (.step18 0x17FFF) = some ⟨true, false, 0x00⟩ ∧
    regsAfter (withRegs false true 0xAA) (.step18 0x10005) = some ⟨true, false, 0xAA⟩ := by decide
theorem test_sample_at_even_position :
    regsAfter (withRegs true true 0x12) (.step18 0x1FFFF) = some ⟨false, true, 0x55⟩ ∧
    recordAfter (withRegs true true 0x12) (.step18 0x1FFFF) = some ([0x55], []) := by decide
theorem test_idle_ends_pulse :
    regsAfter (withRegs false true 0xAA) (.step18 0x00000) = some ⟨false, false, 0xAA⟩ := by decide
theorem test_idle_keeps_phase :
    regsAfter (withRegs true false 0x3D) (.step18 0x0FFFF) = some ⟨true, false, 0x3D⟩ := by decide
theorem test_reset_clears :
    regsAfter (withRegs true true 0xAA) (.step18 0x20000) = some ⟨false, false, 0x00⟩ := by decide
theorem test_reset_drops_sample :
    regsAfter (withRegs true false 0x00) (.step18 0x37FFF) = some ⟨false, false, 0x00⟩ ∧
    recordAfter (withRegs true false 0x00) (.step18 0x37FFF) = some ([], []) := by decide
theorem test_encode_port :
    regsAfter (withRegs true true 0x12) (.enc16 0x3039) = some ⟨true, true, 0x12⟩ ∧
    recordAfter (withRegs true true 0x12) (.enc16 0x3039) = some ([], [0xBD]) := by decide

/-! ### The assembler (30_encoding.md R47, R48, R50) -/

/-- The words of one line of text, or none when it is refused. -/
def wordsOf (line : String) : Option (List PortWord) :=
  (assembleText [line.toList]).toOption

theorem test_assemble_step_line :
    wordsOf "STEP 1, 1, -1  ; dropped" = some [.step18 0x3FFFF] := by decide
theorem test_assemble_hex_operand : wordsOf "ENCODE 0x8000" = some [.enc16 0x8000] := by decide
theorem test_assemble_samples :
    wordsOf "SAMPLES 2, -1" = some [.step18 0x10002, .step18 0x1FFFF] := by decide
theorem test_assemble_idles : wordsOf "IDLES 2" = some [.step18 0, .step18 0] := by decide
theorem test_assemble_reset_and_sample :
    wordsOf "RESET" = some [.step18 0x20000] ∧ wordsOf "SAMPLE 1000" = some [.step18 0x103E8] := by
  decide
theorem test_assemble_comment_line : wordsOf "  ; nothing" = some [] := by decide
theorem test_assemble_refuses :
    wordsOf "SAMPLE 32768" = none ∧ wordsOf "ENCODE 0x123" = none ∧ wordsOf "IDLES 0" = none ∧
    wordsOf "NOP" = none := by decide

/-! ### Outside the block -/

theorem test_sample_bytes : sampleBytes 0x3039 = [0x39, 0x30] := by decide
theorem test_serial_bits_lsb_first :
    serialBits [0, 1, 2, 3, 4, 5, 6, 7] 0xD5 =
      [true, false, true, false, true, false, true, true] := by decide
theorem test_counter_realization :
    emittedByCounter (encoder Config.defaultBuild) 3 0
      [.step18 0x10001, .step18 0x00000, .step18 0x11000] = [0x85] := by decide
theorem test_expand_of_code : expand 0xFA = 1008 := by decide

/-! ### Witnesses: states and operands that meet the hypotheses of the statements -/

/-- The words SAMPLE 4096, IDLE, ENCODE 0, SAMPLE -1, without a RESET. -/
def fourWords : List PortWord := [.step18 0x11000, .step18 0x00000, .enc16 0x0000, .step18 0x1FFFF]

/-- The machine with the words of a run pending. -/
def pending (ws : List PortWord) : State := { withRegs true false 0x3D with input := ws }

theorem fourWords_noReset : NoReset fourWords := by unfold NoReset; decide

theorem witness_StepRunsDecodedOperation :
    (pending fourWords).input = .step18 0x11000 :: fourWords.tail ∧ State.reset.input = [] := by decide

theorem witness_TableWordRunsNext :
    decodeTableWord 24 0x3FFFF = some (.reset true 0xFFFF) ∧
    decodeTableWord 16 0xFFFF = some (.encode 0xFFFF) := by decide

theorem witness_SerialBitsDetermineCode :
    codeBitOrderWf [7, 6, 5, 4, 3, 2, 1, 0] = true ∧
    serialBits [7, 6, 5, 4, 3, 2, 1, 0] 0xD5 = serialBits [7, 6, 5, 4, 3, 2, 1, 0] 0xD5 := by decide

theorem witness_ResetClearsRegisters :
    (0x20000#18).getLsbD 17 = true ∧
    exec (.reset true 5) (withRegs true true 0xAA) = .next (withRegs false false 0x00) := ⟨by decide, rfl⟩

theorem witness_SampleAcceptsAndEmits :
    (withRegs true true 0x12).regs.phase = true ∧ (withRegs false true 0xAA).regs.phase = false ∧
    (0x1FFFF#18).getLsbD 17 = false ∧ (0x1FFFF#18).getLsbD 16 = true := by decide

theorem witness_IdleEndsPulse : (0x0FFFF#18).getLsbD 17 = false ∧ (0x0FFFF#18).getLsbD 16 = false := by
  decide

theorem witness_EncodeFollowsPseudocode : State.reset.cfg.encVariant = .resolved := by decide

theorem witness_LiteralEncodeFollowsShiftedSteps :
    ({ State.reset with cfg := { encVariant := .literalDoc, encImpl := .lut } } : State).cfg.encVariant =
      .literalDoc := by decide

theorem witness_EncoderPortIsIndependent :
    (withRegs true true 0x12).cfg = State.reset.cfg ∧ ∀ y, Instr.sample 0x8000 ≠ .encode y :=
  ⟨by decide, fun _ h => by cases h⟩

theorem witness_StreamAndPortUseOneEncoder : (withRegs true false 0x00).regs.phase = true := by decide

theorem witness_OperationsWriteOnlyTheirState :
    (∃ t, exec (.sample 0x7FFF) (withRegs true false 0x00) = .next t ∧ t.stream = [0xAA] ∧
      t.regs.outCode ≠ (withRegs true false 0x00).regs.outCode ∧
      t.regs.phase ≠ (withRegs true false 0x00).regs.phase) ∧
    (∃ t, exec (.encode 0) (withRegs true false 0x00) = .next t ∧ t.encOuts = [0xD5]) ∧
    ∃ t, exec (.idle 0) (withRegs true true 0xAA) = .next t ∧
      t.regs.outValid ≠ (withRegs true true 0xAA).regs.outValid :=
  ⟨⟨_, rfl, by decide, by decide, by decide⟩, ⟨_, rfl, by decide⟩, ⟨_, rfl, by decide⟩⟩

theorem witness_OutValidExactlyAfterEmission :
    (pending fourWords).input = .step18 0x11000 :: fourWords.tail := by decide

/-- A state in which a code has just been emitted, so that no clause of the invariant is empty. -/
def justEmitted : State :=
  { withRegs false true 0xD5 with stream := [0xD5], encOuts := [0x55], input := fourWords }

theorem witness_StepKeepsInvariant : justEmitted.Inv ∧ ∃ t, step justEmitted = .next t := by
  refine ⟨⟨by decide, by decide, by decide, ?_, ?_⟩, _, rfl⟩
  · intro c hc
    exact ⟨0, by rw [List.mem_singleton.mp hc]; decide⟩
  · intro c hc
    exact ⟨0xFFFF, by rw [List.mem_singleton.mp hc]; decide⟩

theorem witness_OutOfRangeNeverTaken : segmentOf (magnitude 32768) = none := by decide

theorem witness_ThirteenBitFormIsEncoder : InSampleRange (-32768) ∧ InSampleRange 32767 := by
  unfold InSampleRange; decide

theorem witness_SignSymmetry : (0 : Int) ≤ 32767 ∧ (32767 : Int) ≤ 32767 := by decide

theorem witness_SegmentMonotonicInMagnitude :
    InSampleRange 255 ∧ InSampleRange (-257) ∧
    magnitude (255 >>> (0 : Nat)) ≤ magnitude (-257 >>> (0 : Nat)) ∧
    magnitude (255 >>> (3 : Nat)) ≤ magnitude (-257 >>> (3 : Nat)) := by
  unfold InSampleRange; decide

theorem witness_EncImplIsNotObservable :
    ∃ t, exec (.sample 0x8000) (withRegs true false 0x00) = .next t ∧ t.regs.outCode = 0x2A :=
  ⟨_, rfl, by decide⟩

theorem witness_VariantsAgreeExactlyNearZero :
    InSampleRange (-16) ∧ InSampleRange 15 ∧ InSampleRange (-17) ∧ InSampleRange 16 ∧
    encodeLiteral (-16) = encodeResolved (-16) ∧ encodeLiteral 15 = encodeResolved 15 ∧
    encodeLiteral (-17) ≠ encodeResolved (-17) ∧ encodeLiteral 16 ≠ encodeResolved 16 := by
  unfold InSampleRange; decide

theorem witness_SaturationOfLargestMagnitudes :
    (16384 : Int) ≤ 16384 ∧ (16384 : Int) ≤ 32767 ∧ InSampleRange 31744 ∧ InSampleRange (-31745) ∧
    codeQuant (encodeResolved 31744) = 15 ∧ codeQuant (encodeResolved (-31745)) = 15 ∧
    codeQuant (encodeResolved 31743) = 14 ∧ codeQuant (encodeResolved (-31744)) = 14 := by
  unfold InSampleRange; decide

theorem witness_DecimateKeepsEverySecond :
    0 < ([1, 2, 3] : List Sample).length / 2 ∧ decimate ([1, 2, 3] : List Sample) = [2] := by decide

theorem witness_ChunksDecimateAloneOnlyAtEvenLength :
    ([1, 2] : List Sample).length % 2 = 0 ∧ ([1, 2, 3] : List Sample).length % 2 = 1 := by decide

/-- For RunConsumesWordsAndRecordsEncOuts and EmittedCodesKeepInputOrder. -/
theorem witness_RunConsumesWordsAndRecordsEncOuts :
    (pending (fourWords ++ [.step18 0x20000])).input = fourWords ++ [.step18 0x20000] ∧
    encodesOf fourWords = [0] ∧ samplesOf fourWords = [0x1000, 0xFFFF] := by decide

/-- For PhaseIsParityOfSamplesSinceReset, StreamLawAfterReset and OutCodeIsNewestSinceReset. -/
theorem witness_StreamLawAfterReset :
    isReset (.step18 0x3FFFF) = true ∧ NoReset fourWords ∧
    (pending (.step18 0x3FFFF :: (fourWords ++ []))).input = .step18 0x3FFFF :: (fourWords ++ []) ∧
    (withRegs false true 0xAA).regs.phase = false :=
  ⟨by decide, fourWords_noReset, by decide, by decide⟩

theorem witness_PhaseCarriesOverWithoutReset :
    NoReset fourWords ∧ (pending (fourWords ++ [])).input = fourWords ++ [] ∧
    (pending (fourWords ++ [])).regs.phase = true :=
  ⟨fourWords_noReset, by decide, by decide⟩

theorem witness_IdleStepsAreTransparent : AllIdle [.step18 0x00000, .step18 0x0ABCD] := by
  intro w hw
  simp only [List.mem_cons, List.not_mem_nil, or_false] at hw
  rcases hw with rfl | rfl
  · exact ⟨0, by decide⟩
  · exact ⟨0xABCD, by decide⟩

theorem witness_CounterOfAnyWidthGivesTheSameStream :
    1 ≤ 1 ∧ (pending (fourWords ++ [])).regs.phase = decide (7 % 2 = 1) ∧
    (pending (fourWords ++ [])).input = fourWords ++ [] := by decide

theorem witness_SampleValuesNeverMoveThePhase :
    fourWords.map (fun w => (decode w).mnemonic) =
      [PortWord.step18 0x10000, .step18 0x0FFFF, .enc16 0xFFFF, .step18 0x17FFF].map
        (fun w => (decode w).mnemonic) := by decide

theorem witness_AssemblerRefusesWhatItWouldWrap :
    ¬ InSampleRange 32768 ∧ ¬ InSampleRange (-32769) ∧ InSampleRange 32767 ∧ InSampleRange (-32768) ∧
    AsmOperand.dec 32768 ∈ [AsmOperand.dec 1, .dec 32768, .hex 0] := by
  unfold InSampleRange; decide

theorem witness_PseudoOperationsExpand :
    [AsmOperand.dec (-32768), .hex 0xFFFF] ≠ [] ∧
    (∀ v ∈ [AsmOperand.dec (-32768), .hex 0xFFFF], v.wf = true) ∧ 1 ≤ 1 := by decide

end Sys2Proof.Tests
end

section
/-! What one operation and one step do, for every later proof about steps and runs: the equation of each
operation, that a step over a pending word answers a next state, and when an operation emits. -/

namespace Sys2Proof

/-- A STEP18 word is no ENC16 word: it decodes to RESET, SAMPLE or IDLE (R43). -/
theorem decodeStep_ne_encode (w : StepWord) (x : Sample) : decodeStep w ≠ .encode x := by
  cases hr : w.getLsbD 17 with
  | true => simp [decodeStep_of_rst hr]
  | false =>
    cases hv : w.getLsbD 16 with
    | true => simp [decodeStep_of_valid hr hv]
    | false => simp [decodeStep_of_neither hr hv]

end Sys2Proof

namespace Sys2Proof.Machine

@[simp] theorem State.portOutValid_eq (s : State) : s.portOutValid = s.regs.outValid := rfl
@[simp] theorem State.portOutCode_eq (s : State) : s.portOutCode = s.regs.outCode := rfl

@[simp] theorem exec_reset (iv : Bool) (x : Sample) (s : State) :
    exec (.reset iv x) s = .next (s.writeRegs Regs.afterReset) := rfl
@[simp] theorem exec_sample (x : Sample) (s : State) :
    exec (.sample x) s = .next (s.acceptSample x) := rfl
@[simp] theorem exec_idle (x : Sample) (s : State) : exec (.idle x) s = .next s.noSample := rfl
@[simp] theorem exec_encode (x : Sample) (s : State) :
    exec (.encode x) s = .next (s.observeEncOut (encoder s.cfg x)) := rfl

/-- No operation fails (R81). -/
theorem exec_total (i : Instr) (s : State) : ∃ t, exec i s = .next t := by
  cases i <;> exact ⟨_, rfl⟩

/-- No operation takes or adds a pending word. -/
theorem exec_input {i : Instr} {s t : State} (h : exec i s = .next t) : t.input = s.input := by
  obtain ⟨_, _, _, rfl⟩ | ⟨_, _, rfl⟩ | ⟨_, _, rfl⟩ | ⟨_, _, rfl⟩ := exec_next_cases h <;> simp

/-- A step over a pending word takes it and runs its operation, which answers a next state. -/
theorem step_of_cons {s : State} {w : PortWord} {rest : List PortWord} (h : s.input = w :: rest) :
    ∃ t, step s = .next t ∧ exec (decode w) (s.withInput rest) = .next t ∧ t.input = rest := by
  obtain ⟨t, ht⟩ := exec_total (decode w) (s.withInput rest)
  exact ⟨t, by rw [step, State.takeWord_of_cons s h, ← ht], ht, exec_input ht⟩

/-- An operation extends the stream exactly when it is a SAMPLE met at P = 1 (R73). -/
theorem exec_stream_ne_iff {i : Instr} {s t : State} (h : exec i s = .next t) :
    t.stream ≠ s.stream ↔ (∃ x, i = .sample x) ∧ s.regs.phase = true := by
  obtain ⟨iv, x, rfl, rfl⟩ | ⟨x, rfl, rfl⟩ | ⟨x, rfl, rfl⟩ | ⟨x, rfl, rfl⟩ := exec_next_cases h
  · simp
  · simp [State.acceptSample_stream]
  · simp
  · simp

/-- A step operation leaves out_valid at 1 exactly when it is a SAMPLE met at P = 1 (R15). ENCODE is no
step and leaves out_valid as it was. -/
theorem exec_outValid_iff {i : Instr} {s t : State} (h : exec i s = .next t)
    (hi : ∀ x, i ≠ .encode x) :
    t.portOutValid = true ↔ (∃ x, i = .sample x) ∧ s.regs.phase = true := by
  obtain ⟨iv, x, rfl, rfl⟩ | ⟨x, rfl, rfl⟩ | ⟨x, rfl, rfl⟩ | ⟨x, rfl, rfl⟩ := exec_next_cases h
  · simp
  · simp
  · simp
  · exact absurd rfl (hi x)

theorem isReset_iff (w : PortWord) : isReset w = true ↔ ∃ iv x, decode w = .reset iv x := by
  unfold isReset
  cases decode w <;> simp

end Sys2Proof.Machine
end

section
/-! The output ports: out_valid after a step (R15) and out_code over a run (R16). -/

open Sys2Proof Sys2Proof.Machine Sys2Proof.Claims

namespace Sys2Proof.Machine

/-- The last entry of a joined list, where an empty second part defers to the first. -/
theorem getLastD_append {α : Type} (l m : List α) (d : α) :
    (l ++ m).getLastD d = m.getLastD (l.getLastD d) := by
  simp [List.getLastD_eq_getLast?, List.getLast?_append]

/-- From s to t the codes `codes` were emitted, and the out_code port of t shows the newest of them, or
what it showed in s if there is none (R16). -/
def ShowsNewest (s : State) (codes : List Code) (t : State) : Prop :=
  t.stream = s.stream ++ codes ∧ t.portOutCode = codes.getLastD s.portOutCode

theorem showsNewest_refl (s : State) : ShowsNewest s [] s := by
  simp [ShowsNewest]

theorem ShowsNewest.trans {s t u : State} {cs ds : List Code} (h : ShowsNewest s cs t)
    (h' : ShowsNewest t ds u) : ShowsNewest s (cs ++ ds) u := by
  obtain ⟨hst, hco⟩ := h
  obtain ⟨hst', hco'⟩ := h'
  exact ⟨by rw [hst', hst, List.append_assoc], by rw [hco', hco, getLastD_append]⟩

/-- An accepted sample emits its code on both the stream and out_code, or neither changes (R73). -/
theorem acceptSample_showsNewest (x : Sample) (s : State) :
    ∃ codes, ShowsNewest s codes (s.acceptSample x) := by
  cases h : s.regs.phase with
  | true => exact ⟨[encoder s.cfg x], by simp [ShowsNewest, State.acceptSample_of_phase s x h]⟩
  | false => exact ⟨[], by simp [ShowsNewest, State.acceptSample_of_not_phase s x h]⟩

/-- Every operation but RESET keeps out_code at the newest code. -/
theorem exec_showsNewest {i : Instr} {s t : State} (h : exec i s = .next t)
    (hi : ∀ iv x, i ≠ .reset iv x) : ∃ codes, ShowsNewest s codes t := by
  obtain ⟨iv, x, rfl, rfl⟩ | ⟨x, rfl, rfl⟩ | ⟨x, rfl, rfl⟩ | ⟨x, rfl, rfl⟩ := exec_next_cases h
  · exact absurd rfl (hi iv x)
  · exact acceptSample_showsNewest x s
  · exact ⟨[], by simp [ShowsNewest]⟩
  · exact ⟨[], by simp [ShowsNewest]⟩

/-- Over words without a RESET, out_code follows the codes the run emits. -/
theorem runs_showsNewest {s : State} {ws rest : List PortWord} (hws : NoReset ws)
    (hin : s.input = ws ++ rest) : ∃ t codes, Runs ws.length s t ∧ ShowsNewest s codes t := by
  induction ws generalizing s with
  | nil => exact ⟨s, [], runs_zero s, showsNewest_refl s⟩
  | cons w ws ih =>
    obtain ⟨hw, hws⟩ := List.forall_mem_cons.mp hws
    obtain ⟨t, hstep, hexec, hrest⟩ := step_of_cons hin
    have hne : ∀ iv x, decode w ≠ .reset iv x := fun iv x hd => by
      simp [(isReset_iff w).mpr ⟨iv, x, hd⟩] at hw
    obtain ⟨cs, hcs⟩ := exec_showsNewest hexec hne
    obtain ⟨u, ds, hruns, hds⟩ := ih hws hrest
    exact ⟨u, cs ++ ds, runs_succ hstep hruns, ShowsNewest.trans hcs hds⟩

/-- Settles O22: a STEP18 word is no ENCODE, and of the other operations only a SAMPLE at P = 1 sets
out_valid or extends the stream. -/
theorem outValidExactlyAfterEmission : Obligations.OutValidExactlyAfterEmission := by
  intro w rest s hin
  obtain ⟨t, hstep, hexec, -⟩ := step_of_cons hin
  have hvalid := exec_outValid_iff hexec (decodeStep_ne_encode w)
  exact ⟨t, hstep, hvalid, hvalid.trans (exec_stream_ne_iff hexec).symm⟩

/-- Settles O48: a RESET shows 0x00 and emits nothing, and from there out_code follows the stream. -/
theorem outCodeIsNewestSinceReset : Obligations.OutCodeIsNewestSinceReset := by
  refine ⟨fun s r ws rest hr hws hin => ?_, fun x s h => ?_, fun x s => ⟨_, rfl, rfl⟩⟩
  · obtain ⟨iv, x, hd⟩ := (isReset_iff r).mp hr
    obtain ⟨t, hstep, hexec, hrest⟩ := step_of_cons hin
    rw [hd, exec_reset] at hexec
    obtain ⟨u, codes, hruns, hstream, hcode⟩ := runs_showsNewest hws hrest
    cases hexec
    exact ⟨u, codes, runs_succ hstep hruns, hstream, hcode⟩
  · exact ⟨_, exec_sample x s, by rw [State.acceptSample_of_not_phase s x h]; rfl⟩

end Sys2Proof.Machine
end

section
/-! The fields of a STEP18 word (R38) and the operation map over them (R43). -/

open Sys2Proof Sys2Proof.Machine Sys2Proof.Claims

namespace Sys2Proof.Machine

theorem stepWordOf_rst (r i : Bool) (x : Sample) : (stepWordOf r i x).getLsbD 17 = r :=
  BitVec.getLsbD_append.trans (by cases r <;> cases i <;> rfl)

theorem stepWordOf_valid (r i : Bool) (x : Sample) : (stepWordOf r i x).getLsbD 16 = i :=
  BitVec.getLsbD_append.trans (by cases r <;> cases i <;> rfl)

theorem stepWordOf_sample (r i : Bool) (x : Sample) : (stepWordOf r i x).extractLsb' 0 16 = x :=
  BitVec.extractLsb'_append_eq_right

/-- A STEP18 word is made of its three fields (R38). -/
theorem stepWordOf_fields (w : StepWord) :
    stepWordOf (w.getLsbD 17) (w.getLsbD 16) (w.extractLsb' 0 16) = w := by
  refine BitVec.eq_of_getLsbD_eq fun j hj => ?_
  obtain hlow | rfl | rfl : j < 16 ∨ j = 16 ∨ j = 17 := by omega
  · exact BitVec.getLsbD_append.trans (by simp [hlow])
  · exact stepWordOf_valid _ _ _
  · exact stepWordOf_rst _ _ _

@[simp] theorem decode_stepOf_rst (iv : Bool) (x : Sample) :
    decode (stepOf true iv x) = .reset iv x :=
  (decodeStep_of_rst (stepWordOf_rst true iv x)).trans
    (by rw [stepWordOf_valid, stepWordOf_sample])

@[simp] theorem decode_stepOf_valid (x : Sample) : decode (stepOf false true x) = .sample x :=
  (decodeStep_of_valid (stepWordOf_rst false true x) (stepWordOf_valid false true x)).trans
    (by rw [stepWordOf_sample])

@[simp] theorem decode_stepOf_neither (x : Sample) : decode (stepOf false false x) = .idle x :=
  (decodeStep_of_neither (stepWordOf_rst false false x) (stepWordOf_valid false false x)).trans
    (by rw [stepWordOf_sample])

/-- Settles O6: a word is made of its fields, rst and iv alone pick its operation, and the equations of
RESET and IDLE do not mention the fields those words carry along. -/
theorem stepWordsFollowOperationMap : Obligations.StepWordsFollowOperationMap := by
  refine ⟨fun w => ⟨_, _, _, congrArg PortWord.step18 (stepWordOf_fields w).symm⟩, decode_stepOf_rst,
    decode_stepOf_valid, decode_stepOf_neither, fun iv x s => ?_, fun x s => ?_⟩
  · exact ⟨s.writeRegs Regs.afterReset, by simp⟩
  · rw [decode_stepOf_neither, decode_stepOf_neither, exec_idle, exec_idle]

end Sys2Proof.Machine
end

section
/-! The opcode table (R44): the sample bits of a word select no row, so the rows and the decoder are
compared on the two control bits alone. -/

open Sys2Proof Sys2Proof.Machine Sys2Proof.Claims

namespace Sys2Proof.Machine

/-- The mask of a row covers rst, in_valid, both or neither, and no bit of the sample. -/
theorem opcodeTable_mask : ∀ r ∈ opcodeTable, ∃ p q, r.mask = (stepWordOf p q 0).toNat := by
  decide

/-- Masking rst and in_valid clears the sample field. -/
theorem stepWordOf_and (r i p q : Bool) (x : Sample) :
    (stepWordOf r i x).toNat &&& (stepWordOf p q 0).toNat =
      (stepWordOf (r && p) (i && q) 0).toNat := by
  rw [← BitVec.toNat_and]
  exact congrArg BitVec.toNat (Laws.RowMatch.mask_top r i p q x)

theorem selects_stepOf {r : OpcodeRow} (hr : r ∈ opcodeTable) (rst iv : Bool) (x : Sample) :
    r.selects (stepOf rst iv x) = r.selects (stepOf rst iv 0) := by
  obtain ⟨p, q, hmask⟩ := opcodeTable_mask r hr
  simp only [stepOf, OpcodeRow.selects, hmask, stepWordOf_and]

theorem mnemonic_stepOf (rst iv : Bool) (x : Sample) :
    (decode (stepOf rst iv x)).mnemonic = (decode (stepOf rst iv 0)).mnemonic := by
  cases rst with
  | true => simp [Instr.mnemonic]
  | false => cases iv <;> simp [Instr.mnemonic]

/-- The ENCODE row has an empty mask, and the others have the other format. -/
theorem opcodeTable_enc16 : ∀ r ∈ opcodeTable, r.format = .enc16Format → r.mask = 0 := by
  decide

theorem selects_enc16 {r : OpcodeRow} (hr : r ∈ opcodeTable) (x : EncWord) :
    r.selects (.enc16 x) = r.selects (.enc16 0) := by
  by_cases hf : r.format = .enc16Format
  · simp [OpcodeRow.selects, opcodeTable_enc16 r hr hf]
  · simp only [OpcodeRow.selects, beq_eq_false_iff_ne.mpr hf, Bool.false_and]

/-- A row selects exactly the words that decode to the operation it names (R44). -/
theorem selects_iff_mnemonic {r : OpcodeRow} (hr : r ∈ opcodeTable) (w : PortWord) :
    r.selects w = true ↔ r.mnemonic = (decode w).mnemonic := by
  cases w with
  | step18 w =>
    have hcontrol : ∀ (rst iv : Bool), ∀ r ∈ opcodeTable, r.selects (stepOf rst iv 0) = true ↔
        r.mnemonic = (decode (stepOf rst iv 0)).mnemonic := by decide
    rw [← stepWordOf_fields w, ← stepOf, selects_stepOf hr, mnemonic_stepOf]
    exact hcontrol _ _ r hr
  | enc16 x =>
    have hzero : ∀ r ∈ opcodeTable, r.selects (.enc16 0) = true ↔ r.mnemonic = "ENCODE" := by decide
    rw [selects_enc16 hr]
    exact hzero r hr

theorem opcodeTable_mnemonics :
    opcodeTable.map OpcodeRow.mnemonic = ["RESET", "SAMPLE", "IDLE", "ENCODE"] := rfl

theorem mnemonic_mem_opcodeTable (i : Instr) : i.mnemonic ∈ opcodeTable.map OpcodeRow.mnemonic := by
  cases i <;> simp [Instr.mnemonic, opcodeTable_mnemonics]

/-- No two rows of the table have one mnemonic. -/
theorem opcodeTable_mnemonic_inj {r r' : OpcodeRow} (hr : r ∈ opcodeTable) (hr' : r' ∈ opcodeTable)
    (h : r.mnemonic = r'.mnemonic) : r = r' :=
  List.inj_on_of_nodup_map (by rw [opcodeTable_mnemonics]; decide) hr hr' h

/-- Settles O7: the decoded operation has one row, and selecting a word is carrying its mnemonic. -/
theorem oneRowSelectsEachWord : Obligations.OneRowSelectsEachWord := by
  refine ⟨opcodeTable_mnemonics, fun w => ?_, decode_enc16⟩
  obtain ⟨r, hr, hname⟩ := List.mem_map.mp (mnemonic_mem_opcodeTable (decode w))
  refine ⟨r, hr, (selects_iff_mnemonic hr w).mpr hname, hname, fun r' hr' hsel => ?_⟩
  exact opcodeTable_mnemonic_inj hr' hr (((selects_iff_mnemonic hr' w).mp hsel).trans hname.symm)

end Sys2Proof.Machine
end

section
/-! The assembler on well-formed and ill-formed lines (R47), and the pseudo-operations (R48). -/

open Sys2Proof Sys2Proof.Machine Sys2Proof.Claims

namespace Sys2Proof.Machine

theorem assemble_of_wf {l : AsmLine} (h : l.wf = true) : assemble l = .ok (lineWords l) :=
  if_pos h

theorem assemble_of_not_wf {l : AsmLine} (h : l.wf = false) : assemble l = .error (lineError l) :=
  if_neg (by simp [h])

theorem wf_samples_iff (vs : List AsmOperand) :
    (AsmLine.samples vs).wf = true ↔ vs ≠ [] ∧ ∀ v ∈ vs, v.wf = true := by
  simp [AsmLine.wf]

theorem wf_idles_iff (n : Nat) : (AsmLine.idles n).wf = true ↔ 1 ≤ n :=
  decide_eq_true_iff

/-- SAMPLES stands for the words of its SAMPLE lines, in order (R48). -/
theorem lineWords_samples (vs : List AsmOperand) :
    lineWords (.samples vs) = (vs.map fun v => lineWords (.sample v)).flatten := by
  induction vs with
  | nil => rfl
  | cons v vs ih => exact congrArg (_ :: ·) ih

/-- Settles O55: well-formed lines assemble to their words, and the words of a pseudo-operation are those
of its lines; without a line it is not well formed. -/
theorem pseudoOperationsExpand : Obligations.PseudoOperationsExpand := by
  refine ⟨fun vs hne hwf => ⟨vs.map fun v => lineWords (.sample v), ?_, ?_⟩,
    fun n hn => ⟨_, assemble_of_wf rfl, assemble_of_wf ((wf_idles_iff n).mpr hn)⟩,
    assemble_of_not_wf rfl, assemble_of_not_wf rfl⟩
  · rw [List.map_map]
    exact List.map_congr_left fun v hv => (assemble_of_wf (l := .sample v) (hwf v hv)).symm
  · rw [assemble_of_wf ((wf_samples_iff vs).mpr ⟨hne, hwf⟩), lineWords_samples]

end Sys2Proof.Machine
end

section
/-! The two realizations of the encoder (R65): the ROM holds the byte of the search at every address. -/

open Sys2Proof Sys2Proof.Machine Sys2Proof.Claims

namespace Sys2Proof.Machine

theorem romTable_getElem? (var : Config.EncVariant) (x : Sample) :
    (romTable var)[romAddress x]? = some (encodeSearch var (sampleValue x)) := by
  have hx : x.toNat < 65536 := x.isLt
  simp [romTable, List.getElem?_range hx, romAddress]

theorem romRead_eq_encodeSearch (var : Config.EncVariant) (x : Sample) :
    romRead var x = encodeSearch var (sampleValue x) :=
  (List.getElem_eq_iff _).mpr (romTable_getElem? var x)

/-- The realization of a build does not show in its encoder. -/
theorem encoder_eq_encodeSearch (b : Config.Build) (x : Sample) :
    encoder b x = encodeSearch b.encVariant (sampleValue x) := by
  obtain ⟨var, impl⟩ := b
  cases impl with
  | search => rfl
  | lut => exact romRead_eq_encodeSearch var x

/-- Tables of 65536 entries are equal when they agree at the address of every sample. -/
theorem eq_romTable_iff (var : Config.EncVariant) (table : List Code) :
    table = romTable var ↔ table.length = 65536 ∧
      ∀ x : Sample, table[romAddress x]? = some (encodeSearch var (sampleValue x)) := by
  constructor
  · intro h
    rw [h]
    exact ⟨romTable_length var, romTable_getElem? var⟩
  · rintro ⟨hlen, hentries⟩
    refine List.ext_getElem? fun a => ?_
    obtain ha | ha := Nat.lt_or_ge a 65536
    · have hx : romAddress (BitVec.ofNat 16 a) = a := Nat.mod_eq_of_lt ha
      rw [← hx, hentries, romTable_getElem?]
    · rw [List.getElem?_eq_none (hlen ▸ ha), List.getElem?_eq_none (romTable_length var ▸ ha)]

/-- Settles O36: both realizations read the search's byte, and a table passes when it is the ROM's. -/
theorem lutEqualsSearch : Obligations.LutEqualsSearch := by
  refine ⟨fun var x => ⟨?_, encoder_eq_encodeSearch _ x⟩, fun var table => ?_⟩
  · rw [encoder_eq_encodeSearch, encoder_eq_encodeSearch]
  · rw [acceptsTable, beq_iff_eq, eq_romTable_iff]

end Sys2Proof.Machine
end

section
/-! The segment search (R54, R55), and ENCODE against the steps of R51 as Claims.AlawStepsGive writes
them. -/

open Sys2Proof Sys2Proof.Machine Sys2Proof.Claims

namespace Sys2Proof.Machine

/-- The thresholds of the table, 2^(i+8) - 1 for segment i (R54). -/
theorem segmentTable_eq_map : segmentTable = (List.range 8).map fun i => 2 ^ (i + 8) - 1 := rfl

/-- Settles O25: the list is the source's, and its entries are those of the formula. -/
theorem segmentTableThresholds : Obligations.SegmentTableThresholds :=
  ⟨rfl, fun i hi => by simp [segmentTable_eq_map, hi]⟩

/-- The search answers the smallest segment whose threshold the magnitude does not exceed (R55). -/
theorem segmentOf_eq_some_iff (m seg : Nat) :
    segmentOf m = some seg ↔
      seg ≤ 7 ∧ m ≤ 2 ^ (seg + 8) - 1 ∧ ∀ j, j < seg → 2 ^ (j + 8) - 1 < m := by
  rw [segmentOf, segmentTable_eq_map, List.findIdx?_eq_some_iff_getElem]
  simp [Nat.lt_succ_iff, and_left_comm]

/-- The last threshold bounds every magnitude of 15 bits, so the search finds a segment (R56). -/
theorem segmentOf_isSome {m : Nat} (h : m ≤ 32767) : (segmentOf m).isSome = true := by
  rw [segmentOf, List.findIdx?_isSome, List.any_eq_true]
  exact ⟨32767, by decide, decide_eq_true h⟩

theorem magnitude_sampleValue_le (x : Sample) : magnitude (sampleValue x) ≤ 32767 := by
  have hx := sampleValue_bounds x
  obtain hv | hv := le_or_gt 0 (sampleValue x)
  · have hm := magnitude_of_nonneg hv
    omega
  · have hm := magnitude_of_neg hv
    omega

/-- The code in the arithmetic of the pseudocode, once the segment is known (R58). -/
theorem encodeResolved_eq_ofNat {v : Int} {seg : Nat} (h : segmentOf (magnitude v) = some seg) :
    encodeResolved v =
      BitVec.ofNat 8 (16 * seg + quantField seg (magnitude v)) ^^^ signMask v := by
  rw [encodeResolved_of_segment h, combine_eq _ _ (quantField_lt _ _), Nat.mul_comm seg]

/-- Where the search finds a segment, the encoder follows the steps. -/
theorem alawStepsGive_encodeResolved {v : Int} {seg : Nat}
    (h : segmentOf (magnitude v) = some seg) : AlawStepsGive v (encodeResolved v) := by
  obtain ⟨hseg, hle, hmin⟩ := (segmentOf_eq_some_iff _ _).mp h
  refine ⟨signMask v, magnitude v, seg, quantField seg (magnitude v), fun hv => ?_, fun hv => ?_,
    hseg, hle, hmin, fun hlow => ?_, fun hhigh => ?_, encodeResolved_eq_ofNat h⟩
  · exact ⟨signMask_of_nonneg hv, magnitude_of_nonneg hv⟩
  · exact ⟨signMask_of_neg hv, magnitude_of_neg hv⟩
  · exact (quantField_eq _ _).trans (if_pos hlow)
  · exact (quantField_eq _ _).trans (if_neg (by omega))

/-- Each step fixes the value it names, so what the steps give is the encoder's code. -/
theorem isSome_and_eq_of_alawStepsGive {v : Int} {c : Code} (h : AlawStepsGive v c) :
    (segmentOf (magnitude v)).isSome = true ∧ c = encodeResolved v := by
  obtain ⟨mask, m, seg, q, hnonneg, hneg, hseg, hle, hmin, hlow, hhigh, rfl⟩ := h
  obtain ⟨rfl, rfl⟩ : mask = signMask v ∧ m = magnitude v := by
    obtain hv | hv := le_or_gt 0 v
    · obtain ⟨hmask, hm⟩ := hnonneg hv
      exact ⟨hmask.trans (signMask_of_nonneg hv).symm,
        Int.ofNat_inj.mp (hm.trans (magnitude_of_nonneg hv).symm)⟩
    · obtain ⟨hmask, hm⟩ := hneg hv
      exact ⟨hmask.trans (signMask_of_neg hv).symm,
        Int.ofNat_inj.mp (hm.trans (magnitude_of_neg hv).symm)⟩
  have hq : q = quantField seg (magnitude v) := by
    rw [quantField_eq]
    split
    next hs => exact hlow hs
    next hs => exact hhigh (by omega)
  have hfound : segmentOf (magnitude v) = some seg :=
    (segmentOf_eq_some_iff _ _).mpr ⟨hseg, hle, hmin⟩
  exact ⟨Option.isSome_of_eq_some hfound, by rw [hq, encodeResolved_eq_ofNat hfound]⟩

/-- The steps of the pseudocode and the encoder say the same of every value that has a segment. -/
theorem alawStepsGive_iff (v : Int) (c : Code) :
    AlawStepsGive v c ↔ (segmentOf (magnitude v)).isSome = true ∧ c = encodeResolved v := by
  refine ⟨isSome_and_eq_of_alawStepsGive, ?_⟩
  rintro ⟨hsome, rfl⟩
  obtain ⟨seg, hseg⟩ := Option.isSome_iff_exists.mp hsome
  exact alawStepsGive_encodeResolved hseg

/-- Settles O16: the encoder's code is the one result of the steps; the rule's table is evaluated. -/
theorem encodeFollowsPseudocode : Obligations.EncodeFollowsPseudocode := by
  simp only [Obligations.EncodeFollowsPseudocode, alawStepsGive_iff]
  refine ⟨fun x s hvar => ⟨encoder s.cfg x, ⟨?_, ?_⟩, exec_encode x s⟩,
    fun v c d ⟨_, hc⟩ ⟨_, hd⟩ => hc.trans hd.symm, by decide⟩
  · exact segmentOf_isSome (magnitude_sampleValue_le x)
  · rw [encoder_eq_encodeSearch, hvar]
    rfl

end Sys2Proof.Machine
end

section
/-! The whole-state equations of SAMPLE at either phase (R73) and of IDLE (R74). -/

open Sys2Proof Sys2Proof.Machine Sys2Proof.Claims

namespace Sys2Proof.Machine

/-- SAMPLE at P = 1, an even position: the code is shown and emitted (R73). -/
theorem exec_sample_of_phase {s : State} (x : Sample) (h : s.regs.phase = true) :
    exec (.sample x) s =
      .next ((s.writeRegs ⟨false, true, encoder s.cfg x⟩).emit (encoder s.cfg x)) := by
  rw [exec_sample, State.acceptSample_of_phase s x h]

/-- SAMPLE at P = 0, an odd position: nothing is emitted and out_code is kept (R73). -/
theorem exec_sample_of_not_phase {s : State} (x : Sample) (h : s.regs.phase = false) :
    exec (.sample x) s = .next (s.writeRegs ⟨true, false, s.regs.outCode⟩) := by
  rw [exec_sample, State.acceptSample_of_not_phase s x h]

/-- Settles O14: one equation of SAMPLE for each phase, and the decoder's case rst = 0, in_valid = 1. -/
theorem sampleAcceptsAndEmits : Obligations.SampleAcceptsAndEmits :=
  ⟨fun x _ hphase => exec_sample_of_phase x hphase,
    fun x _ hphase => exec_sample_of_not_phase x hphase,
    fun _ hrst hvalid => decodeStep_of_valid hrst hvalid⟩

/-- Settles O15: the equation of IDLE, and the decoder's case rst = 0, in_valid = 0. -/
theorem idleEndsPulse : Obligations.IdleEndsPulse :=
  ⟨fun x s => exec_idle x s, fun _ hrst hvalid => ⟨_, decodeStep_of_neither hrst hvalid⟩⟩

end Sys2Proof.Machine
end

section
/-! RESET as a whole-state operation (R93): a second write of the registers replaces the first, and the
first sample after a RESET is at position 1. -/

open Sys2Proof Sys2Proof.Machine Sys2Proof.Claims

namespace Sys2Proof.Machine

@[simp] theorem State.writeRegs_writeRegs (s : State) (r r' : Regs) :
    (s.writeRegs r).writeRegs r' = s.writeRegs r' := rfl

/-- The sample after a RESET turns P to 1 and shows no code; nothing reaches the stream (R73, R93). -/
theorem exec_sample_writeRegs_afterReset (y : Sample) (s : State) :
    exec (.sample y) (s.writeRegs Regs.afterReset) = .next (s.writeRegs ⟨true, false, 0x00⟩) := by
  have hphase : (s.writeRegs Regs.afterReset).regs.phase = false := rfl
  rw [exec_sample_of_not_phase y hphase, State.writeRegs_writeRegs, State.writeRegs_regs,
    Regs.afterReset_outCode]

/-- Settles O13: the equation of RESET, the decoder's case rst = 1, and the two facts of this section. -/
theorem resetClearsRegisters : Obligations.ResetClearsRegisters := by
  refine ⟨fun iv x s => exec_reset iv x s, fun w hrst => ⟨_, _, decodeStep_of_rst hrst⟩,
    fun iv x iv' x' s t hreset => ?_, fun iv x y s => ?_⟩
  · obtain rfl : s.writeRegs Regs.afterReset = t := Host.Outcome.next.inj hreset
    rw [exec_reset, State.writeRegs_writeRegs]
  · exact ⟨_, _, exec_reset iv x s, exec_sample_writeRegs_afterReset y s, rfl, rfl⟩

end Sys2Proof.Machine
end

section
/-! Words and operations determine each other (R38, R39, R43), and so do words and their bytes (log 8). -/

open Sys2Proof Sys2Proof.Machine Sys2Proof.Claims

namespace Sys2Proof.Machine

theorem encode_reset (iv : Bool) (x : Sample) : encode (.reset iv x) = stepOf true iv x := rfl
theorem encode_sample (x : Sample) : encode (.sample x) = stepOf false true x := rfl
theorem encode_idle (x : Sample) : encode (.idle x) = stepOf false false x := rfl

theorem decode_encode (i : Instr) : decode (encode i) = i := by
  cases i with
  | reset iv x => exact decode_stepOf_rst iv x
  | sample x => exact decode_stepOf_valid x
  | idle x => exact decode_stepOf_neither x
  | encode x => rfl

/-- The encoding of the operation rst and in_valid pick puts back the three fields. -/
theorem encode_decode_stepOf (rst iv : Bool) (x : Sample) :
    encode (decode (stepOf rst iv x)) = stepOf rst iv x := by
  cases rst with
  | true => rw [decode_stepOf_rst, encode_reset]
  | false =>
    cases iv with
    | true => rw [decode_stepOf_valid, encode_sample]
    | false => rw [decode_stepOf_neither, encode_idle]

/-- Settles O9: a STEP18 word is made of its fields, and these come back. -/
theorem encodeOfDecode : Obligations.EncodeOfDecode := by
  rintro (w | w)
  · have hw : stepOf _ _ _ = .step18 w := congrArg PortWord.step18 (stepWordOf_fields w)
    rw [← hw, encode_decode_stepOf]
  · rfl

/-- Bit vectors side by side as a number, for comparisons of words and their bytes by arithmetic. -/
theorem toNat_append_eq_add {n m : Nat} (x : BitVec n) (y : BitVec m) :
    (x ++ y).toNat = x.toNat * 2 ^ m + y.toNat := by
  rw [BitVec.toNat_append, ← Nat.shiftLeft_add_eq_or_of_lt y.isLt, Nat.shiftLeft_eq]

theorem toNat_extract_eq_div_mod {n : Nat} (i k : Nat) (x : BitVec n) :
    (x.extractLsb' i k).toNat = x.toNat / 2 ^ i % 2 ^ k := by
  rw [BitVec.extractLsb'_toNat, Nat.shiftRight_eq_div_pow]

/-- The three bytes of a STEP18 word, put side by side again, are the word. -/
theorem step18_bytes_append (w : StepWord) :
    ((w.extractLsb' 16 2).setWidth 8).extractLsb' 0 2 ++ w.extractLsb' 8 8 ++ w.extractLsb' 0 8 = w := by
  refine BitVec.eq_of_toNat_eq ?_
  have hw : w.toNat < 2 ^ 18 := w.isLt
  simp only [toNat_append_eq_add, toNat_extract_eq_div_mod, BitVec.toNat_setWidth]
  omega

theorem enc16_bytes_append (w : EncWord) : w.extractLsb' 8 8 ++ w.extractLsb' 0 8 = w := by
  refine BitVec.eq_of_toNat_eq ?_
  have hw : w.toNat < 2 ^ 16 := w.isLt
  simp only [toNat_append_eq_add, toNat_extract_eq_div_mod]
  omega

theorem wordOfBytes_bytesOfWord (w : PortWord) : wordOfBytes (bytesOfWord w) = .ok w := by
  cases w with
  | step18 w =>
    have htop : ((w.extractLsb' 16 2).setWidth 8).toNat < 4 := by
      rw [BitVec.toNat_setWidth_of_le (by decide)]
      exact (w.extractLsb' 16 2).isLt
    simp only [bytesOfWord, wordOfBytes, if_pos htop, step18_bytes_append]
  | enc16 w => simp only [bytesOfWord, wordOfBytes, enc16_bytes_append]

/-- Settles O8: the word determines the operation, and the bytes determine the word. -/
theorem decodeOfEncode : Obligations.DecodeOfEncode := fun i =>
  ⟨decode_encode i, by rw [decodeBytes, wordOfBytes_bytesOfWord, Except.map, decode_encode]⟩

theorem bytesOfWord_enc16_append (b0 b1 : BitVec 8) : bytesOfWord (.enc16 (b1 ++ b0)) = [b0, b1] := by
  simp only [bytesOfWord, BitVec.extractLsb'_append_eq_right, BitVec.extractLsb'_append_eq_left]

/-- A third byte below 4 has two bits, so the word of 18 bits keeps all three bytes. -/
theorem bytesOfWord_step18_append (b0 b1 b2 : BitVec 8) (h : b2.toNat < 4) :
    bytesOfWord (.step18 (b2.extractLsb' 0 2 ++ b1 ++ b0)) = [b0, b1, b2] := by
  have h0 : b0.toNat < 2 ^ 8 := b0.isLt
  have h1 : b1.toNat < 2 ^ 8 := b1.isLt
  simp only [bytesOfWord, List.cons.injEq, ← BitVec.toNat_inj, BitVec.toNat_setWidth,
    toNat_append_eq_add, toNat_extract_eq_div_mod]
  exact ⟨by omega, by omega, by omega, trivial⟩

/-- Settles O10: two bytes are an ENC16 word, three are a STEP18 word unless the third is 4 or more. -/
theorem onlyBytesOfWordsDecode : Obligations.OnlyBytesOfWordsDecode := by
  intro bs
  match bs with
  | [b0, b1] => exact .inl ⟨_, rfl, bytesOfWord_enc16_append b0 b1⟩
  | [b0, b1, b2] =>
    obtain h | h := lt_or_ge b2.toNat 4
    · exact .inl ⟨_, if_pos h, bytesOfWord_step18_append b0 b1 b2 h⟩
    · exact .inr (.inr ⟨b0, b1, b2, rfl, h, if_neg (Nat.not_lt.mpr h)⟩)
  | [] => exact .inr (.inl ⟨by simp, by simp, rfl⟩)
  | [_] => exact .inr (.inl ⟨by simp, by simp, rfl⟩)
  | _ :: _ :: _ :: _ :: _ => exact .inr (.inl ⟨by simp, by simp, rfl⟩)

/-- Settles O11: the two bytes of a sample are those of the ENC16 word with its pattern. -/
theorem sampleBytesLittleEndian : Obligations.SampleBytesLittleEndian := by
  intro x
  refine ⟨_, _, rfl, ?_, ?_⟩
  · simp only [BitVec.extractLsb'_toNat]
    omega
  · exact congrArg (Except.map decode) (wordOfBytes_bytesOfWord (.enc16 x))

/-- Settles O12: the order names every bit, so equal bits sent are equal bits. -/
theorem serialBitsDetermineCode : Obligations.SerialBitsDetermineCode := by
  intro order c d hwf
  obtain ⟨hlen, hnodup⟩ : order.length = 8 ∧ order.Nodup := of_decide_eq_true hwf
  refine ⟨by rw [serialBits, List.length_map, hlen], fun hbits => ?_⟩
  have hall : order.toFinset = Finset.univ := by
    rw [← Finset.card_eq_iff_eq_univ, List.toFinset_card_of_nodup hnodup, hlen, Fintype.card_fin]
  refine BitVec.eq_of_getLsbD_eq fun j hj => ?_
  have hmem : (⟨j, hj⟩ : Fin 8) ∈ order := List.mem_toFinset.mp (hall ▸ Finset.mem_univ _)
  exact List.map_inj_left.mp hbits ⟨j, hj⟩ hmem

/-- Settles O5: fixed words, each evaluated. -/
theorem workedWordsDecode : Obligations.WorkedWordsDecode := by
  unfold Obligations.WorkedWordsDecode
  decide

end Sys2Proof.Machine
end

section
/-! One step over a word (R10, R43), and the word a step takes from the table or at power-on. -/

open Sys2Proof Sys2Proof.Machine Sys2Proof.Claims

namespace Sys2Proof.Machine

theorem step_eq_exec_of_cons {s : State} {w : PortWord} {rest : List PortWord}
    (h : s.input = w :: rest) : step s = exec (decode w) (s.withInput rest) := by
  rw [step, State.takeWord_of_cons s h]

theorem step_of_nil {s : State} (h : s.input = []) : step s = .next s := by
  rw [step, State.takeWord_of_nil s h]

@[simp] theorem State.withInput_withInput (s : State) (ws vs : List PortWord) :
    (s.withInput ws).withInput vs = s.withInput vs := rfl

theorem State.withInput_of_input_eq {s : State} {ws : List PortWord} (h : s.input = ws) :
    s.withInput ws = s := by
  subst h
  rfl

/-- The word put before the pending ones is the one the next step runs. -/
theorem step_presentWord (s : State) (w : PortWord) : step (s.presentWord w) = exec (decode w) s := by
  have hin : (s.presentWord w).input = w :: s.input := rfl
  rw [step_eq_exec_of_cons hin, State.presentWord, State.withInput_withInput,
    State.withInput_of_input_eq rfl]

/-- Settles O1: the fields of the state after reset, each by its own lemma. -/
theorem resetStateValues : Obligations.ResetStateValues := by
  unfold Obligations.ResetStateValues
  simp [Config.defaultBuild]

/-- Settles O2: the step is RESET, which writes the registers whatever they held. -/
theorem oneResetStepAfterPowerOn : Obligations.OneResetStepAfterPowerOn := by
  intro n cfg iv x rest
  obtain ⟨t, hstep, hexec, hinput⟩ :=
    step_of_cons (s := State.powerOn n cfg (stepOf true iv x :: rest)) rfl
  rw [decode_stepOf_rst, exec_reset] at hexec
  cases hexec
  exact ⟨_, hstep, rfl, rfl, hinput, rfl⟩

/-- Settles O3: the two cases of the words still to come. -/
theorem stepRunsDecodedOperation : Obligations.StepRunsDecodedOperation :=
  ⟨fun _ _ _ hin => step_eq_exec_of_cons hin, fun _ hin => step_of_nil hin⟩

/-- Settles O4: a number that decodes is a word, and that word is applied next. -/
theorem tableWordRunsNext : Obligations.TableWordRunsNext := by
  intro s nbits w i hdecode
  obtain ⟨p, hword, rfl⟩ := Option.map_eq_some_iff.mp hdecode
  rw [State.withFetchWord, hword]
  exact step_presentWord s p

end Sys2Proof.Machine
end

section
/-! What an operation changes, as one function of the state, and what it cannot change or show: the frame
of the four operations (R13), the independence of the encoder port (R71) and of the realization of the
encoder (R65). -/

open Sys2Proof Sys2Proof.Machine Sys2Proof.Claims

namespace Sys2Proof.Machine

/-- The state an operation answers. -/
def nextState (i : Instr) (s : State) : State :=
  match i with
  | .reset _ _ => s.writeRegs Regs.afterReset
  | .sample x => s.acceptSample x
  | .idle _ => s.noSample
  | .encode x => s.observeEncOut (encoder s.cfg x)

theorem exec_eq_nextState (i : Instr) (s : State) : exec i s = .next (nextState i s) := by
  cases i <;> rfl

@[simp] theorem nextState_reset (iv : Bool) (x : Sample) (s : State) :
    nextState (.reset iv x) s = s.writeRegs Regs.afterReset := rfl
@[simp] theorem nextState_sample (x : Sample) (s : State) :
    nextState (.sample x) s = s.acceptSample x := rfl
@[simp] theorem nextState_idle (x : Sample) (s : State) : nextState (.idle x) s = s.noSample := rfl
@[simp] theorem nextState_encode (x : Sample) (s : State) :
    nextState (.encode x) s = s.observeEncOut (encoder s.cfg x) := rfl

@[simp] theorem nextState_cfg (i : Instr) (s : State) : (nextState i s).cfg = s.cfg := by
  cases i <;> simp

/-- An accepted sample at either phase, as one equation: what it writes is a function of P, out_code and
the build, and it appends to the stream. -/
theorem State.acceptSample_eq (s : State) (x : Sample) :
    s.acceptSample x =
      { s with
        regs := ⟨!s.regs.phase, s.regs.phase, if s.regs.phase then encoder s.cfg x else s.regs.outCode⟩,
        stream := s.stream ++ if s.regs.phase then [encoder s.cfg x] else [] } := by
  cases h : s.regs.phase with
  | true => simp [State.acceptSample_of_phase s x h, State.writeRegs, State.emit]
  | false => simp [State.acceptSample_of_not_phase s x h, State.writeRegs]

/-- A step operation and an evaluation of the encoder port touch different fields. -/
theorem nextState_observeEncOut (i : Instr) (c : Code) (s : State) (hi : ∀ y, i ≠ .encode y) :
    nextState i (s.observeEncOut c) = (nextState i s).observeEncOut c := by
  cases i with
  | reset iv x => rfl
  | sample x => rw [nextState_sample, nextState_sample, State.acceptSample_eq, State.acceptSample_eq]; rfl
  | idle x => rfl
  | encode x => exact absurd rfl (hi x)

/-- Settles O18: enc_out is a function of the build and enc_in, and ENCODE touches only its record. -/
theorem encoderPortIsIndependent : Obligations.EncoderPortIsIndependent := by
  refine ⟨fun x s u hcfg => ?_, fun x s => exec_encode x s, fun i x s hi => ?_⟩
  · rw [State.portEncOut, State.portEncOut, hcfg]
  · refine ⟨_, _, _, exec_eq_nextState i s, exec_encode x _, exec_encode x s, ?_⟩
    rw [exec_eq_nextState, nextState_observeEncOut i _ s hi, nextState_cfg]

/-- Settles O19: the equations of an emitting SAMPLE and of ENCODE name one code. -/
theorem streamAndPortUseOneEncoder : Obligations.StreamAndPortUseOneEncoder := fun x s hphase =>
  ⟨_, _, encoder s.cfg x, exec_sample_of_phase x hphase, exec_encode x s, rfl, rfl, rfl⟩

/-- Settles O20: for each operation, the fields it writes and those it keeps. -/
theorem operationsWriteOnlyTheirState : Obligations.OperationsWriteOnlyTheirState := by
  intro i s t hexec
  obtain ⟨iv, x, rfl, rfl⟩ | ⟨x, rfl, rfl⟩ | ⟨x, rfl, rfl⟩ | ⟨x, rfl, rfl⟩ := exec_next_cases hexec
  · simp
  · simp [State.acceptSample_stream, State.acceptSample_outCode]
    exact fun hphase _ => hphase
  · simp
  · simp

/-- The build with the other realization has the same encoder (R65). -/
theorem encoder_encImpl (b : Config.Build) (impl : Config.EncImpl) (x : Sample) :
    encoder { b with encImpl := impl } x = encoder b x := by
  rw [encoder_eq_encodeSearch, encoder_eq_encodeSearch]

/-- The same machine realized with the other encoder. -/
def State.withEncImpl (impl : Config.EncImpl) (s : State) : State :=
  { s with cfg := { s.cfg with encImpl := impl } }

theorem acceptSample_withEncImpl (impl : Config.EncImpl) (x : Sample) (s : State) :
    (s.withEncImpl impl).acceptSample x = (s.acceptSample x).withEncImpl impl := by
  have hcode : encoder (s.withEncImpl impl).cfg x = encoder s.cfg x := encoder_encImpl s.cfg impl x
  rw [State.acceptSample_eq, State.acceptSample_eq, hcode]
  rfl

theorem nextState_withEncImpl (impl : Config.EncImpl) (i : Instr) (s : State) :
    nextState i (s.withEncImpl impl) = (nextState i s).withEncImpl impl := by
  cases i with
  | reset iv x => rfl
  | sample x => exact acceptSample_withEncImpl impl x s
  | idle x => rfl
  | encode x =>
    have hcode : encoder (s.withEncImpl impl).cfg x = encoder s.cfg x := encoder_encImpl s.cfg impl x
    rw [nextState_encode, hcode]
    rfl

/-- Settles O37: the build is read by the encoder only, which does not show its realization. -/
theorem encImplIsNotObservable : Obligations.EncImplIsNotObservable := by
  intro impl i s t hexec
  obtain rfl : nextState i s = t := Host.Outcome.next.inj ((exec_eq_nextState i s).symm.trans hexec)
  exact (exec_eq_nextState i _).trans (congrArg Host.Outcome.next (nextState_withEncImpl impl i s))

end Sys2Proof.Machine
end

section
/-! The invariant of the registers and the stream, operation by operation. -/

open Sys2Proof Sys2Proof.Machine Sys2Proof.Claims

namespace Sys2Proof.Machine

/-- The invariant does not speak of the words still to come. -/
theorem State.Inv.withInput {s : State} (h : s.Inv) (ws : List PortWord) : (s.withInput ws).Inv := by
  obtain ⟨hphase, hnewest, horigin, hstream, hencOuts⟩ := h
  exact ⟨hphase, hnewest, horigin, hstream, hencOuts⟩

/-- Registers that show no code in a state of the same records need only an out_code of known origin. -/
theorem State.Inv.writeRegs {s : State} (h : s.Inv) {r : Regs} (hvalid : r.outValid = false)
    (hcode : r.outCode = 0x00 ∨ r.outCode ∈ s.stream) : (s.writeRegs r).Inv where
  valid_phase hv := by simp [hvalid] at hv
  valid_newest hv := by simp [hvalid] at hv
  code_origin := hcode
  stream_codes := h.stream_codes
  encOuts_codes := h.encOuts_codes

theorem State.Inv.acceptSample {s : State} (h : s.Inv) (x : Sample) : (s.acceptSample x).Inv := by
  cases hphase : s.regs.phase with
  | false =>
    rw [State.acceptSample_of_not_phase s x hphase]
    exact h.writeRegs rfl h.code_origin
  | true =>
    rw [State.acceptSample_of_phase s x hphase]
    refine ⟨fun _ => rfl, fun _ => by simp, .inr (by simp), fun c hc => ?_, h.encOuts_codes⟩
    obtain hold | hnew := List.mem_append.mp hc
    · exact h.stream_codes c hold
    · exact ⟨x, List.mem_singleton.mp hnew⟩

theorem State.Inv.observeEncOut {s : State} (h : s.Inv) (x : Sample) :
    (s.observeEncOut (encoder s.cfg x)).Inv := by
  refine ⟨h.valid_phase, h.valid_newest, h.code_origin, h.stream_codes, fun c hc => ?_⟩
  obtain hold | hnew := List.mem_append.mp hc
  · exact h.encOuts_codes c hold
  · exact ⟨x, List.mem_singleton.mp hnew⟩

theorem State.Inv.nextState {s : State} (h : s.Inv) (i : Instr) : (nextState i s).Inv := by
  cases i with
  | reset iv x => exact h.writeRegs rfl (.inl rfl)
  | sample x => exact h.acceptSample x
  | idle x => exact h.writeRegs rfl h.code_origin
  | encode x => exact h.observeEncOut x

/-- Settles O23: after reset no code is shown and nothing is recorded. -/
theorem invariantAtReset : Obligations.InvariantAtReset where
  valid_phase hv := by simp at hv
  valid_newest hv := by simp at hv
  code_origin := .inl rfl
  stream_codes c hc := by simp at hc
  encOuts_codes c hc := by simp at hc

/-- Settles O24: a step holds the state or runs one operation, and each operation keeps the invariant. -/
theorem stepKeepsInvariant : Obligations.StepKeepsInvariant := by
  intro s t hinv hstep
  cases hin : s.input with
  | nil =>
    rw [step_of_nil hin] at hstep
    cases hstep
    exact hinv
  | cons w rest =>
    rw [step_eq_exec_of_cons hin, exec_eq_nextState] at hstep
    cases hstep
    exact (hinv.withInput rest).nextState (decode w)

end Sys2Proof.Machine
end

section
/-! Decimation of lists (R72) and of chunks (R89). -/

open Sys2Proof Sys2Proof.Machine Sys2Proof.Claims

namespace Sys2Proof.Machine

theorem decimate_length {α : Type} : ∀ l : List α, (decimate l).length = l.length / 2
  | [] => by simp
  | [_] => by simp
  | _ :: _ :: l => by
    simp only [decimate_cons_cons, List.length_cons, decimate_length l]
    omega

theorem decimate_getElem? {α : Type} : ∀ (l : List α) (k : Nat), (decimate l)[k]? = l[2 * k + 1]?
  | [], _ => by simp
  | [_], _ => by simp
  | _ :: _ :: _, 0 => rfl
  | _ :: _ :: l, k + 1 => decimate_getElem? l k

/-- Settles O42: the length and the entries of the decimated list. -/
theorem decimateKeepsEverySecond : Obligations.DecimateKeepsEverySecond := fun xs =>
  ⟨decimate_length xs, fun k _ => decimate_getElem? xs k⟩

theorem decimate_append_of_even {α : Type} :
    ∀ xs ys : List α, xs.length % 2 = 0 → decimate (xs ++ ys) = decimate xs ++ decimate ys
  | [], _, _ => rfl
  | [_], _, h => by simp at h
  | _ :: b :: l, ys, h => by
    have hl : l.length % 2 = 0 := by simpa [Nat.add_assoc] using h
    exact congrArg (b :: ·) (decimate_append_of_even l ys hl)

/-- The sample left over by a chunk of odd length pairs with the first one of the next chunk; which sample
it is does not show. -/
theorem decimate_append_of_odd {α : Type} :
    ∀ (xs ys : List α) (d : α), xs.length % 2 = 1 →
      decimate (xs ++ ys) = decimate xs ++ decimate (d :: ys)
  | [], _, _, h => by simp at h
  | [_], [], _, _ => rfl
  | [_], _ :: _, _, _ => rfl
  | _ :: b :: l, ys, d, h => by
    have hl : l.length % 2 = 1 := by simpa [Nat.add_assoc] using h
    exact congrArg (b :: ·) (decimate_append_of_odd l ys d hl)

/-- Settles O43: the two laws of a first chunk, and one more sample as the telling continuation. -/
theorem chunksDecimateAloneOnlyAtEvenLength : Obligations.ChunksDecimateAloneOnlyAtEvenLength := by
  refine ⟨decimate_append_of_even, decimate_append_of_odd, fun xs hodd => ⟨[0], ?_⟩⟩
  rw [decimate_append_of_odd xs [0] 0 hodd]
  simp

end Sys2Proof.Machine
end

section
/-! A run over a list of words ends in the state that the operations of the words give one after the other;
what follows about runs is about this state. -/

open Sys2Proof Sys2Proof.Machine Sys2Proof.Claims

namespace Sys2Proof.Machine

/-- The state after the operations of the words, in order, with the words still to come left as they are. -/
def afterWords (ws : List PortWord) (s : State) : State :=
  ws.foldl (fun s w => nextState (decode w) s) s

@[simp] theorem afterWords_nil (s : State) : afterWords [] s = s := rfl
@[simp] theorem afterWords_cons (w : PortWord) (ws : List PortWord) (s : State) :
    afterWords (w :: ws) s = afterWords ws (nextState (decode w) s) := rfl
theorem afterWords_append (ws vs : List PortWord) (s : State) :
    afterWords (ws ++ vs) s = afterWords vs (afterWords ws s) :=
  List.foldl_append

/-- No operation reads the words still to come. -/
theorem nextState_withInput (i : Instr) (s : State) (ws : List PortWord) :
    nextState i (s.withInput ws) = (nextState i s).withInput ws := by
  cases i with
  | reset iv x => rfl
  | sample x => rw [nextState_sample, nextState_sample, State.acceptSample_eq, State.acceptSample_eq]; rfl
  | idle x => rfl
  | encode x => rfl

/-- A run of as many steps as there are words ends in the state after their operations (R104). -/
theorem runs_withInput_afterWords (ws rest : List PortWord) (s : State) :
    Runs ws.length (s.withInput (ws ++ rest)) ((afterWords ws s).withInput rest) := by
  induction ws generalizing s with
  | nil => exact runs_zero _
  | cons w ws ih =>
    have hstep : step (s.withInput (w :: (ws ++ rest))) =
        .next ((nextState (decode w) s).withInput (ws ++ rest)) := by
      rw [step_eq_exec_of_cons (State.withInput_input s _), State.withInput_withInput, exec_eq_nextState,
        nextState_withInput]
    exact runs_succ hstep (ih (nextState (decode w) s))

theorem runs_afterWords {s : State} {ws rest : List PortWord} (hin : s.input = ws ++ rest) :
    Runs ws.length s ((afterWords ws s).withInput rest) := by
  have hruns := runs_withInput_afterWords ws rest s
  rwa [State.withInput_of_input_eq hin] at hruns

theorem step_total (s : State) : ∃ t, step s = .next t := by
  cases hin : s.input with
  | nil => exact ⟨s, step_of_nil hin⟩
  | cons w rest =>
    obtain ⟨t, hstep, -, -⟩ := step_of_cons hin
    exact ⟨t, hstep⟩

theorem runs_total (k : Nat) (s : State) : ∃ t, Runs k s t := by
  induction k generalizing s with
  | zero => exact ⟨s, runs_zero s⟩
  | succ k ih =>
    obtain ⟨t, hstep⟩ := step_total s
    obtain ⟨u, hruns⟩ := ih t
    exact ⟨u, runs_succ hstep hruns⟩

/-- Settles O21: operations, steps and runs, each from the one before. -/
theorem noOperationFails : Obligations.NoOperationFails := ⟨exec_total, step_total, runs_total⟩

@[simp] theorem afterWords_cfg (ws : List PortWord) (s : State) : (afterWords ws s).cfg = s.cfg := by
  induction ws generalizing s with
  | nil => rfl
  | cons w ws ih => rw [afterWords_cons, ih, nextState_cfg]

theorem encodesOf_append (ws vs : List PortWord) :
    encodesOf (ws ++ vs) = encodesOf ws ++ encodesOf vs :=
  List.filterMap_append

theorem encodesOf_cons (w : PortWord) (ws : List PortWord) :
    encodesOf (w :: ws) = encodesOf [w] ++ encodesOf ws :=
  encodesOf_append [w] ws

theorem nextState_encOuts (w : PortWord) (s : State) :
    (nextState (decode w) s).encOuts = s.encOuts ++ (encodesOf [w]).map (encoder s.cfg) := by
  cases h : decode w <;> simp [encodesOf, h]

theorem afterWords_encOuts (ws : List PortWord) (s : State) :
    (afterWords ws s).encOuts = s.encOuts ++ (encodesOf ws).map (encoder s.cfg) := by
  induction ws generalizing s with
  | nil => exact (List.append_nil _).symm
  | cons w ws ih =>
    rw [afterWords_cons, ih, nextState_encOuts, nextState_cfg, encodesOf_cons w ws, List.map_append,
      List.append_assoc]

/-- Settles O44: the state after the words keeps the build and records the values in order. -/
theorem runConsumesWordsAndRecordsEncOuts : Obligations.RunConsumesWordsAndRecordsEncOuts :=
  fun s ws _ hin => ⟨_, runs_afterWords hin, rfl, afterWords_cfg ws s, afterWords_encOuts ws s⟩

end Sys2Proof.Machine
end

section
/-! The stream of a run (R73, R77). The decimator with a position counter describes it in one recursion on
the words; the stream laws are facts about that description. -/

open Sys2Proof Sys2Proof.Machine Sys2Proof.Claims

namespace Sys2Proof.Machine

/-- A counter modulo an even number has the parity of what it counts. -/
theorem counter_parity {k : Nat} (hk : 1 ≤ k) (n : Nat) : n % 2 ^ k % 2 = n % 2 :=
  Nat.mod_mod_of_dvd n (dvd_pow_self 2 (by omega))

/-- The block emits what the decimator with a counter of its parity emits (R14, R75). -/
theorem afterWords_stream (ws : List PortWord) {k : Nat} (hk : 1 ≤ k) {n : Nat} {s : State}
    (hn : s.regs.phase = decide (n % 2 = 1)) :
    (afterWords ws s).stream = s.stream ++ emittedByCounter (encoder s.cfg) k n ws := by
  induction ws generalizing n s with
  | nil => simp [emittedByCounter]
  | cons w ws ih =>
    cases h : decode w with
    | reset iv x =>
      simp only [afterWords_cons, emittedByCounter, h]
      exact ih (n := 0) rfl
    | sample x =>
      have hparity := counter_parity hk (n + 1)
      have hnext : (s.acceptSample x).regs.phase = decide ((n + 1) % 2 ^ k % 2 = 1) := by
        rw [State.acceptSample_phase, hn, hparity, ← decide_not, decide_eq_decide]
        omega
      simp only [afterWords_cons, emittedByCounter, h, nextState_sample]
      rw [ih hnext, State.acceptSample_stream, State.acceptSample_cfg, hn, hparity]
      obtain hodd | heven := Nat.mod_two_eq_zero_or_one n
      · simp [hodd, show (n + 1) % 2 = 1 by omega]
      · simp [heven, show (n + 1) % 2 = 0 by omega]
    | idle x =>
      simp only [afterWords_cons, emittedByCounter, h]
      exact ih (s := s.noSample) hn
    | encode x =>
      simp only [afterWords_cons, emittedByCounter, h]
      exact ih (s := s.observeEncOut (encoder s.cfg x)) hn

/-- Settles O51: the run ends in the state after the words. -/
theorem counterOfAnyWidthGivesTheSameStream : Obligations.CounterOfAnyWidthGivesTheSameStream :=
  fun _ _ _ ws _ hk hn hin => ⟨_, runs_afterWords hin, afterWords_stream ws hk hn⟩

/-- The stream in terms of P itself, as a counter of one bit. -/
theorem afterWords_stream_phase (ws : List PortWord) (s : State) :
    (afterWords ws s).stream =
      s.stream ++ emittedByCounter (encoder s.cfg) 1 s.regs.phase.toNat ws :=
  afterWords_stream ws (Nat.le_refl 1) (by cases s.regs.phase <;> rfl)

theorem emittedByCounter_sublist (enc : Sample → Code) (k n : Nat) (ws : List PortWord) :
    (emittedByCounter enc k n ws).Sublist ((samplesOf ws).map enc) := by
  induction ws generalizing n with
  | nil => exact List.Sublist.refl _
  | cons w ws ih =>
    cases h : decode w with
    | reset iv x =>
      rw [samplesOf_cons_other ws (by simp [h])]
      simpa only [emittedByCounter, h] using ih 0
    | sample x =>
      rw [samplesOf_cons_sample ws h, List.map_cons]
      simp only [emittedByCounter, h]
      split
      · exact (ih _).cons_cons _
      · exact (ih _).cons _
    | idle x =>
      rw [samplesOf_cons_other ws (by simp [h])]
      simpa only [emittedByCounter, h] using ih n
    | encode x =>
      rw [samplesOf_cons_other ws (by simp [h])]
      simpa only [emittedByCounter, h] using ih n

/-- Settles O50: the counter keeps or drops each sample in its turn. -/
theorem emittedCodesKeepInputOrder : Obligations.EmittedCodesKeepInputOrder :=
  fun s ws _ hin => ⟨_, _, runs_afterWords hin, afterWords_stream_phase ws s,
    emittedByCounter_sublist _ _ _ ws⟩

theorem noReset_cons {w : PortWord} {ws : List PortWord} (h : NoReset (w :: ws)) :
    (∀ iv x, decode w ≠ .reset iv x) ∧ NoReset ws := by
  obtain ⟨hw, hws⟩ := List.forall_mem_cons.mp h
  exact ⟨fun iv x hd => by simp [(isReset_iff w).mpr ⟨iv, x, hd⟩] at hw, hws⟩

/-- Without a RESET a counter of one bit decimates the samples, one of which has been counted before them
when it stands at 1. -/
theorem emittedByCounter_of_noReset (enc : Sample → Code) (p : Bool) (d : Sample) {ws : List PortWord}
    (hws : NoReset ws) : emittedByCounter enc 1 p.toNat ws =
      (decimate (if p then d :: samplesOf ws else samplesOf ws)).map enc := by
  induction ws generalizing p d with
  | nil => cases p <;> rfl
  | cons w ws ih =>
    obtain ⟨hw, hws⟩ := noReset_cons hws
    cases h : decode w with
    | reset iv x => exact absurd h (hw iv x)
    | sample x =>
      rw [samplesOf_cons_sample ws h]
      cases p with
      | false => simpa [emittedByCounter, h] using ih true x hws
      | true => simpa [emittedByCounter, h] using ih false x hws
    | idle x =>
      rw [samplesOf_cons_other ws (by simp [h])]
      simpa only [emittedByCounter, h] using ih p d hws
    | encode x =>
      rw [samplesOf_cons_other ws (by simp [h])]
      simpa only [emittedByCounter, h] using ih p d hws

/-- Settles O47: P counts at most the one sample before the words. -/
theorem phaseCarriesOverWithoutReset : Obligations.PhaseCarriesOverWithoutReset :=
  fun s ws _ d hws hin => ⟨_, runs_afterWords hin, (afterWords_stream_phase ws s).trans
    (by rw [emittedByCounter_of_noReset _ _ d hws])⟩

/-- A RESET word clears the registers and keeps the records. -/
theorem nextState_of_isReset {r : PortWord} (h : isReset r = true) (s : State) :
    nextState (decode r) s = s.writeRegs Regs.afterReset := by
  obtain ⟨iv, x, hd⟩ := (isReset_iff r).mp h
  rw [hd, nextState_reset]

/-- Settles O46: after a RESET the words are decimated from P = 0. -/
theorem streamLawAfterReset : Obligations.StreamLawAfterReset := by
  intro s r ws rest hr hws hin
  refine ⟨_, runs_afterWords (ws := r :: ws) hin, rfl, ?_⟩
  rw [State.withInput_stream, afterWords_cons, nextState_of_isReset hr, afterWords_stream_phase,
    emittedByCounter_of_noReset _ _ 0 hws]
  rfl

/-- Without a RESET each sample turns P over (R14). -/
theorem afterWords_phase_of_noReset {ws : List PortWord} (hws : NoReset ws) (s : State) :
    (afterWords ws s).regs.phase = (s.regs.phase ^^ decide ((samplesOf ws).length % 2 = 1)) := by
  induction ws generalizing s with
  | nil => simp
  | cons w ws ih =>
    obtain ⟨hw, hws⟩ := noReset_cons hws
    rw [afterWords_cons, ih hws]
    cases h : decode w with
    | reset iv x => exact absurd h (hw iv x)
    | sample x =>
      rw [samplesOf_cons_sample ws h, List.length_cons, nextState_sample, State.acceptSample_phase]
      obtain hlen | hlen := Nat.mod_two_eq_zero_or_one (samplesOf ws).length
      · simp [hlen, Nat.add_mod]
      · simp [hlen, Nat.add_mod]
    | idle x => rw [samplesOf_cons_other ws (by simp [h])]; rfl
    | encode x => rw [samplesOf_cons_other ws (by simp [h])]; rfl

/-- Settles O45: the RESET leaves P at 0, and the samples after it are counted from there. -/
theorem phaseIsParityOfSamplesSinceReset : Obligations.PhaseIsParityOfSamplesSinceReset := by
  intro s r ws rest hr hws hin
  refine ⟨_, runs_afterWords (ws := r :: ws) hin, ?_⟩
  rw [State.withInput_regs, afterWords_cons, nextState_of_isReset hr, afterWords_phase_of_noReset hws,
    State.writeRegs_regs, Regs.afterReset_phase, Bool.false_xor]

end Sys2Proof.Machine
end

section
/-! Two runs compared: with IDLE steps put in (R78), and with other sample values (R75). -/

open Sys2Proof Sys2Proof.Machine Sys2Proof.Claims

namespace Sys2Proof.Machine

/-- States that differ in out_valid only stay so: every operation overwrites out_valid or passes it on. -/
theorem nextState_noSample (i : Instr) (s : State) :
    (nextState i s.noSample).noSample = (nextState i s).noSample := by
  cases i with
  | reset iv x => rfl
  | sample x => rw [nextState_sample, nextState_sample, State.acceptSample_eq, State.acceptSample_eq]; rfl
  | idle x => rfl
  | encode x => rfl

theorem afterWords_noSample_congr (ws : List PortWord) {s t : State} (h : s.noSample = t.noSample) :
    (afterWords ws s).noSample = (afterWords ws t).noSample := by
  induction ws generalizing s t with
  | nil => exact h
  | cons w ws ih =>
    refine ih ?_
    rw [← nextState_noSample, h, nextState_noSample]

theorem allIdle_cons {w : PortWord} {ws : List PortWord} (h : AllIdle (w :: ws)) :
    (∃ x, decode w = .idle x) ∧ AllIdle ws :=
  List.forall_mem_cons.mp h

/-- IDLE steps change out_valid only (R74). -/
theorem afterWords_noSample_of_allIdle {ws : List PortWord} (h : AllIdle ws) (s : State) :
    (afterWords ws s).noSample = s.noSample := by
  induction ws generalizing s with
  | nil => rfl
  | cons w ws ih =>
    obtain ⟨⟨x, hidle⟩, hws⟩ := allIdle_cons h
    rw [afterWords_cons, hidle, nextState_idle, ih hws]
    rfl

/-- Settles O49: the inserted steps change out_valid only, and the words after them keep it so. -/
theorem idleStepsAreTransparent : Obligations.IdleStepsAreTransparent := by
  intro s before idles after rest hidles
  have hwithout := runs_withInput_afterWords (before ++ after) rest s
  have hwith := runs_withInput_afterWords (before ++ idles ++ after) rest s
  have hsame : (afterWords (before ++ after) s).noSample =
      (afterWords (before ++ idles ++ after) s).noSample := by
    rw [afterWords_append, afterWords_append, afterWords_append]
    exact afterWords_noSample_congr after (afterWords_noSample_of_allIdle hidles _).symm
  rw [List.length_append] at hwithout
  rw [List.length_append, List.length_append] at hwith
  exact ⟨_, _, hwithout, hwith, congrArg (·.stream) hsame, congrArg (·.regs.phase) hsame,
    congrArg (·.regs.outCode) hsame, congrArg (·.encOuts) hsame, rfl⟩

/-- The states agree in P, out_valid and the number of codes emitted. -/
def SameTiming (s t : State) : Prop :=
  s.regs.phase = t.regs.phase ∧ s.regs.outValid = t.regs.outValid ∧ s.stream.length = t.stream.length

/-- The operation alone, without its operand, fixes how these move. -/
theorem SameTiming.nextState {s t : State} (h : SameTiming s t) {i j : Instr}
    (hij : i.mnemonic = j.mnemonic) : SameTiming (nextState i s) (nextState j t) := by
  obtain ⟨hphase, hvalid, hcount⟩ := h
  cases i <;> cases j <;> simp [Instr.mnemonic] at hij
  case reset.reset => exact ⟨rfl, rfl, hcount⟩
  case sample.sample =>
    cases hp : t.regs.phase <;> simp [SameTiming, State.acceptSample_stream, hphase, hcount, hp]
  case idle.idle => exact ⟨hphase, rfl, hcount⟩
  case encode.encode => exact ⟨hphase, hvalid, hcount⟩

theorem SameTiming.afterWords {s t : State} (h : SameTiming s t) {ws vs : List PortWord}
    (hwords : ws.map (fun w => (decode w).mnemonic) = vs.map fun w => (decode w).mnemonic) :
    SameTiming (afterWords ws s) (afterWords vs t) := by
  induction ws generalizing vs s t with
  | nil =>
    obtain rfl : vs = [] := List.map_eq_nil_iff.mp hwords.symm
    exact h
  | cons w ws ih =>
    obtain ⟨v, vs, rfl, hv, hvs⟩ := List.map_eq_cons_iff.mp hwords.symm
    exact ih (h.nextState hv.symm) hvs.symm

/-- Settles O52: the two ends agree in timing, as the common start does. -/
theorem sampleValuesNeverMoveThePhase : Obligations.SampleValuesNeverMoveThePhase := by
  intro s ws vs rest hwords
  obtain ⟨hphase, hvalid, hcount⟩ := SameTiming.afterWords (s := s) ⟨rfl, rfl, rfl⟩ hwords
  exact ⟨_, _, runs_withInput_afterWords ws rest s, runs_withInput_afterWords vs rest s, hphase, hvalid,
    hcount⟩

end Sys2Proof.Machine
end

section
/-! The consumer of the output ports (R98, R99). -/

open Sys2Proof Sys2Proof.Machine Sys2Proof.Claims

namespace Sys2Proof.Machine

/-- What the consumer has already taken of the ports when a step begins: at a clock edge the code shown
before it. An ENCODE, and a step with no word, have no edge. -/
def edgeCapture (s : State) : List Code :=
  match s.input with
  | .step18 _ :: _ => portCode s
  | _ => []

theorem capture_succ {s t : State} (k : Nat) (h : step s = .next t) :
    capture (k + 1) s = edgeCapture s ++ capture k t := by
  match hin : s.input with
  | [] => simp [capture, edgeCapture, h, hin]
  | .step18 _ :: _ => simp [capture, edgeCapture, h, hin]
  | .enc16 _ :: _ => simp [capture, edgeCapture, h, hin]

/-- A clock edge leaves on the ports exactly the code it emits, if any (R15). -/
theorem nextState_stream_of_step18 (w : StepWord) (s : State) :
    (nextState (decodeStep w) s).stream = s.stream ++ portCode (nextState (decodeStep w) s) := by
  have hne := decodeStep_ne_encode w
  cases h : decodeStep w with
  | reset iv x => simp [portCode]
  | sample x =>
    cases hp : s.regs.phase <;>
      simp [portCode, State.acceptSample_stream, State.acceptSample_outCode, hp]
  | idle x => simp [portCode]
  | encode x => exact absurd h (hne x)

/-- Over one step, what the consumer takes and what it will see next are what it saw and what is emitted. -/
theorem edgeCapture_step {s t : State} (h : step s = .next t) :
    ∃ codes, t.stream = s.stream ++ codes ∧ edgeCapture s ++ portCode t = portCode s ++ codes := by
  match hin : s.input with
  | [] =>
    rw [step_of_nil hin] at h
    cases h
    exact ⟨[], by simp, by simp [edgeCapture, hin]⟩
  | .step18 w :: rest =>
    rw [step_eq_exec_of_cons hin, exec_eq_nextState] at h
    cases h
    exact ⟨_, nextState_stream_of_step18 w _, by simp [edgeCapture, hin]⟩
  | .enc16 x :: rest =>
    rw [step_eq_exec_of_cons hin, exec_eq_nextState] at h
    cases h
    exact ⟨[], by simp, by rw [edgeCapture, hin, List.append_nil]; rfl⟩

theorem capture_eq (k : Nat) (s : State) :
    ∃ t codes, Runs k s t ∧ t.stream = s.stream ++ codes ∧ capture k s = portCode s ++ codes := by
  induction k generalizing s with
  | zero => exact ⟨s, [], runs_zero s, by simp, by simp [capture]⟩
  | succ k ih =>
    obtain ⟨t, hstep⟩ := step_total s
    obtain ⟨cs, hcs, hedge⟩ := edgeCapture_step hstep
    obtain ⟨u, ds, hruns, hds, hcapture⟩ := ih t
    refine ⟨u, cs ++ ds, runs_succ hstep hruns, by rw [hds, hcs, List.append_assoc], ?_⟩
    calc capture (k + 1) s = edgeCapture s ++ (portCode t ++ ds) := by rw [capture_succ k hstep, hcapture]
      _ = portCode s ++ (cs ++ ds) := by rw [← List.append_assoc, hedge, List.append_assoc]

/-- Settles O53: what is captured is what was on the ports and what the run adds to the stream. -/
theorem consumerCapturesEveryCode : Obligations.ConsumerCapturesEveryCode := by
  intro k s
  obtain ⟨t, codes, hruns, hstream, hcapture⟩ := capture_eq k s
  exact ⟨t, hruns, by rw [hcapture, hstream, List.drop_left]⟩

end Sys2Proof.Machine
end

section
/-! Samples as numbers: the sign bit, the complement, the pattern of a value, and arithmetic shifts
(R18, R53, R67). -/

open Sys2Proof Sys2Proof.Machine Sys2Proof.Claims

namespace Sys2Proof.Machine

theorem sampleValue_eq_cond (x : Sample) :
    sampleValue x = if x.toNat < 32768 then (x.toNat : Int) else x.toNat - 65536 := by
  rw [sampleValue, BitVec.toInt_eq_toNat_cond]
  exact if_congr (by omega) rfl rfl

theorem getLsbD_eq_div_mod {n : Nat} (x : BitVec n) (i : Nat) :
    x.getLsbD i = decide (x.toNat / 2 ^ i % 2 = 1) := by
  rw [← BitVec.testBit_toNat, Nat.testBit_eq_decide_div_mod_eq]

/-- Bit 15 is the sign (R18). -/
theorem getLsbD_sign (x : Sample) : x.getLsbD 15 = decide (sampleValue x < 0) := by
  have hx : x.toNat < 65536 := x.isLt
  rw [getLsbD_eq_div_mod, sampleValue_eq_cond, decide_eq_decide]
  split <;> omega

theorem getLsbD_sign_of_neg {x : Sample} (h : sampleValue x < 0) : x.getLsbD 15 = true :=
  (getLsbD_sign x).trans (decide_eq_true h)

theorem getLsbD_sign_of_nonneg {x : Sample} (h : 0 ≤ sampleValue x) : x.getLsbD 15 = false :=
  (getLsbD_sign x).trans (decide_eq_false (Int.not_lt.mpr h))

theorem sampleValue_not (x : Sample) : sampleValue (~~~x) = -sampleValue x - 1 := by
  have hx : x.toNat < 65536 := x.isLt
  rw [sampleValue_eq_cond, sampleValue_eq_cond, BitVec.toNat_not]
  split <;> split <;> omega

theorem sampleValue_inRange (x : Sample) : InSampleRange (sampleValue x) := sampleValue_bounds x

theorem sampleValue_samplePattern {v : Int} (h : InSampleRange v) : sampleValue (samplePattern v) = v := by
  obtain ⟨hlo, hhi⟩ := h
  exact BitVec.toInt_ofInt_eq_self (by decide) hlo (by omega)

theorem samplePattern_sampleValue (x : Sample) : samplePattern (sampleValue x) = x :=
  BitVec.ofInt_toInt

theorem sampleValue_inj {x y : Sample} : sampleValue x = sampleValue y ↔ x = y :=
  BitVec.toInt_inj

theorem magnitude_le_of_inRange {v : Int} (h : InSampleRange v) : magnitude v ≤ 32767 := by
  rw [← sampleValue_samplePattern h]
  exact magnitude_sampleValue_le _

theorem nonneg_shiftRight_iff (v : Int) (k : Nat) : 0 ≤ v >>> k ↔ 0 ≤ v := by
  rw [Int.shiftRight_eq_div_pow]
  exact Int.ediv_nonneg_iff_of_pos (by positivity)

theorem signMask_shiftRight (v : Int) (k : Nat) : signMask (v >>> k) = signMask v :=
  if_congr (nonneg_shiftRight_iff v k) rfl rfl

/-- The one's complement makes the magnitude of a shifted value the shifted magnitude, for either sign. -/
theorem magnitude_shiftRight (v : Int) (k : Nat) : magnitude (v >>> k) = magnitude v / 2 ^ k := by
  induction k with
  | zero => simp
  | succ k ih =>
    have hhalf : ∀ u : Int, magnitude (u / 2) = magnitude u / 2 := fun u => by
      unfold magnitude
      split <;> split <;> omega
    have hone : v >>> (k + 1) = (v >>> k) / 2 := by
      rw [Int.shiftRight_add, Int.shiftRight_eq_div_pow _ 1]
      rfl
    rw [hone, hhalf, ih, Nat.div_div_eq_div_mul, ← Nat.pow_succ]

theorem magnitude_shiftRight_le {v : Int} (h : InSampleRange v) (k : Nat) :
    magnitude (v >>> k) ≤ 32767 := by
  rw [magnitude_shiftRight]
  exact (Nat.div_le_self _ _).trans (magnitude_le_of_inRange h)

/-- The values of magnitude up to m are as many on either side of zero (R53). -/
theorem magnitude_le_iff (v : Int) (m : Nat) : magnitude v ≤ m ↔ -(m : Int) - 1 ≤ v ∧ v ≤ m := by
  obtain h | h := le_or_gt 0 v
  · have hm := magnitude_of_nonneg h
    omega
  · have hm := magnitude_of_neg h
    omega

/-- The value of a sign and a magnitude. -/
def valueOf : Bool → Nat → Int
  | true, m => m
  | false, m => -m - 1

@[simp] theorem decide_nonneg_valueOf (b : Bool) (m : Nat) : decide (0 ≤ valueOf b m) = b := by
  cases b with
  | true => exact decide_eq_true (Int.natCast_nonneg m)
  | false => exact decide_eq_false (by rw [valueOf]; omega)

@[simp] theorem magnitude_valueOf (b : Bool) (m : Nat) : magnitude (valueOf b m) = m := by
  cases b with
  | true => rfl
  | false => exact magnitude_complement (m : Int)

theorem valueOf_magnitude (v : Int) : valueOf (decide (0 ≤ v)) (magnitude v) = v := by
  obtain h | h := le_or_gt 0 v
  · rw [decide_eq_true h, valueOf, magnitude_of_nonneg h]
  · rw [decide_eq_false (Int.not_le.mpr h), valueOf, magnitude_of_neg h]
    omega

theorem valueOf_complement (b : Bool) (m : Nat) : -valueOf b m - 1 = valueOf (!b) m := by
  cases b with
  | true => rfl
  | false => simp [valueOf]

theorem valueOf_shiftRight (b : Bool) (m k : Nat) : valueOf b m >>> k = valueOf b (m / 2 ^ k) := by
  have hsign : decide (0 ≤ valueOf b m >>> k) = b := by
    rw [decide_eq_decide.mpr (nonneg_shiftRight_iff _ k), decide_nonneg_valueOf]
  rw [← valueOf_magnitude (valueOf b m >>> k), hsign, magnitude_shiftRight, magnitude_valueOf]

theorem complement_shiftRight (v : Int) (k : Nat) : (-v - 1) >>> k = -(v >>> k) - 1 := by
  rw [← valueOf_magnitude v, valueOf_complement, valueOf_shiftRight, valueOf_shiftRight,
    valueOf_complement]

theorem valueOf_inRange {m : Nat} (b : Bool) (h : m ≤ 32767) : InSampleRange (valueOf b m) := by
  unfold InSampleRange
  cases b <;> rw [valueOf] <;> omega

theorem toNat_magnitudeBits (x : Sample) : (magnitudeBits x).toNat = magnitude (sampleValue x) := by
  have hx : x.toNat < 65536 := x.isLt
  have hlow : (x.extractLsb' 0 15).toNat = x.toNat / 1 % 32768 := toNat_extract_eq_div_mod 0 15 x
  have hvalue := sampleValue_eq_cond x
  obtain hneg | hnonneg := lt_or_ge (sampleValue x) 0
  · have hm := magnitude_of_neg hneg
    rw [magnitudeBits, getLsbD_sign_of_neg hneg, if_pos rfl, BitVec.xor_allOnes, BitVec.toNat_not, hlow]
    omega
  · have hm := magnitude_of_nonneg hnonneg
    rw [magnitudeBits, getLsbD_sign_of_nonneg hnonneg, if_neg Bool.false_ne_true,
      BitVec.ofNat_eq_ofNat, BitVec.xor_zero, hlow]
    omega

/-- Settles O26: by the sign bit, and by the 15 low bits as a number. -/
theorem signAndMagnitudeBits : Obligations.SignAndMagnitudeBits := by
  refine fun x => ⟨?_, (toNat_magnitudeBits x).symm, magnitude_sampleValue_le x⟩
  obtain hneg | hnonneg := lt_or_ge (sampleValue x) 0
  · rw [signMask_of_neg hneg, getLsbD_sign_of_neg hneg]
    rfl
  · rw [signMask_of_nonneg hnonneg, getLsbD_sign_of_nonneg hnonneg]
    rfl

end Sys2Proof.Machine
end

section
/-! Segments and their steps of magnitudes (R54 to R57, R62). -/

open Sys2Proof Sys2Proof.Machine Sys2Proof.Claims

namespace Sys2Proof.Machine

/-- A segment holds the magnitudes from its base up to its threshold 2^(seg+8) - 1 (R54, R62). -/
theorem segmentOf_eq_some_iff_range {m seg : Nat} (hseg : seg ≤ 7) :
    segmentOf m = some seg ↔ segmentBase seg ≤ m ∧ m < 2 ^ (seg + 8) := by
  have hpos : 0 < 2 ^ (seg + 8) := Nat.two_pow_pos _
  rw [segmentOf_eq_some_iff, and_iff_right hseg, and_comm (a := m ≤ _),
    show m ≤ 2 ^ (seg + 8) - 1 ↔ m < 2 ^ (seg + 8) by omega]
  refine and_congr_left fun _ => ?_
  cases seg with
  | zero => simp [segmentBase]
  | succ s =>
    have hbase : segmentBase (s + 1) = 2 ^ (s + 8) := rfl
    rw [hbase]
    refine ⟨fun hmin => ?_, fun hle j hj => ?_⟩
    · have := hmin s (Nat.lt_succ_self s)
      omega
    · have hmono : 2 ^ (j + 8) ≤ 2 ^ (s + 8) := Nat.pow_le_pow_right (by decide) (by omega)
      have hjpos : 0 < 2 ^ (j + 8) := Nat.two_pow_pos _
      omega

theorem quantField_eq_div_stepSize (seg m : Nat) : quantField seg m = m / stepSize seg % 16 := by
  rw [quantField_eq, stepSize]
  split <;> rfl

/-- The sixteen steps of a segment fill it (R62). -/
theorem segmentBase_add_steps : ∀ seg : Nat, segmentBase seg + 16 * stepSize seg = 2 ^ (seg + 8)
  | 0 => rfl
  | 1 => rfl
  | s + 2 => by
    have hbase : segmentBase (s + 2) = 2 ^ (s + 9) := if_neg (by omega)
    have hstep : stepSize (s + 2) = 2 ^ (s + 5) := if_neg (by omega)
    rw [hbase, hstep]
    ring

/-- Segment and quantization field name one step of magnitudes (R62). -/
theorem segment_and_quant_iff_step {m seg q : Nat} (hseg : seg ≤ 7) (hq : q < 16) :
    segmentOf m = some seg ∧ quantField seg m = q ↔
      segmentBase seg + q * stepSize seg ≤ m ∧
      m < segmentBase seg + q * stepSize seg + stepSize seg := by
  rw [segmentOf_eq_some_iff_range hseg, quantField_eq_div_stepSize]
  interval_cases seg <;> simp [segmentBase, stepSize] <;> omega

theorem segmentOf_le_seven {m seg : Nat} (h : segmentOf m = some seg) : seg ≤ 7 := by
  obtain ⟨hseg, -, -⟩ := (segmentOf_eq_some_iff m seg).mp h
  exact hseg

theorem exists_segmentOf {m : Nat} (h : m ≤ 32767) : ∃ seg, segmentOf m = some seg :=
  Option.isSome_iff_exists.mp (segmentOf_isSome h)

/-- A larger magnitude has no smaller segment: the smallest threshold above it is above both. -/
theorem segmentOf_mono {m₁ m₂ s₁ s₂ : Nat} (h : m₁ ≤ m₂) (h₁ : segmentOf m₁ = some s₁)
    (h₂ : segmentOf m₂ = some s₂) : s₁ ≤ s₂ := by
  obtain ⟨-, -, hmin⟩ := (segmentOf_eq_some_iff _ _).mp h₁
  obtain ⟨-, hle, -⟩ := (segmentOf_eq_some_iff _ _).mp h₂
  by_contra hlt
  have := hmin s₂ (by omega)
  omega

/-- Settles O35: every shifted sample has a segment, and the search is monotonic. -/
theorem segmentMonotonicInMagnitude : Obligations.SegmentMonotonicInMagnitude := by
  refine ⟨fun k v₁ v₂ hv₁ hv₂ hle => ?_, by decide, by decide⟩
  obtain ⟨s₁, h₁⟩ := exists_segmentOf (magnitude_shiftRight_le hv₁ k)
  obtain ⟨s₂, h₂⟩ := exists_segmentOf (magnitude_shiftRight_le hv₂ k)
  exact ⟨s₁, s₂, h₁, h₂, segmentOf_mono hle h₁ h₂⟩

/-- Settles O28: the branch is the definition's, and samples of either variant have a segment. -/
theorem outOfRangeNeverTaken : Obligations.OutOfRangeNeverTaken := by
  refine ⟨fun v hnone => by rw [encodeResolved, hnone], fun x => ⟨?_, ?_⟩, by decide⟩
  · exact Option.isSome_iff_ne_none.mp (segmentOf_isSome (magnitude_sampleValue_le x))
  · exact Option.isSome_iff_ne_none.mp
      (segmentOf_isSome (magnitude_shiftRight_le (sampleValue_inRange x) 3))

/-- Above the first threshold the segment is the position of the leading 1 bit, less 7 (R55). -/
theorem segmentOf_eq_log2 {m : Nat} (h : m ≤ 32767) :
    segmentOf m = some (if m ≤ 255 then 0 else Nat.log2 m - 7) := by
  split
  next hlow => exact (segmentOf_eq_some_iff_range (by decide)).mpr ⟨Nat.zero_le m, by omega⟩
  next hhigh =>
    have hm : m ≠ 0 := by omega
    have hge : 8 ≤ Nat.log2 m := (Nat.le_log2 hm).mpr (by omega)
    have hlt : Nat.log2 m < 15 := (Nat.log2_lt hm).mpr (by omega)
    obtain ⟨hbase, htop⟩ := (Nat.log2_eq_iff hm).mp rfl
    rw [segmentOf_eq_some_iff_range (by omega), segmentBase, if_neg (by omega),
      show m.log2 - 7 + 7 = m.log2 by omega, show m.log2 - 7 + 8 = m.log2 + 1 by omega]
    exact ⟨hbase, htop⟩

/-- The priority encoder finds the leading 1 of m[14:8] (R55). -/
theorem segmentOf_eq_segmentBits (m : BitVec 15) : segmentOf m.toNat = some (segmentBits m) := by
  have hm : m.toNat < 32768 := m.isLt
  unfold segmentBits
  simp only [getLsbD_eq_div_mod, decide_eq_true_eq]
  repeat' split
  all_goals
    rw [segmentOf_eq_some_iff_range (by decide)]
    simp [segmentBase]
    omega

/-- Settles O27: both forms of the position of the leading bit. -/
theorem segmentIsLeadingBitPosition : Obligations.SegmentIsLeadingBitPosition := fun m =>
  ⟨segmentOf_eq_log2 (Nat.le_of_lt_succ m.isLt), segmentOf_eq_segmentBits m⟩

end Sys2Proof.Machine
end

section
/-! The fields of a code (R41), and the code of a sample as the code with the sample's fields. -/

open Sys2Proof Sys2Proof.Machine Sys2Proof.Claims

namespace Sys2Proof.Machine

theorem codeSegment_eq (c : Code) : codeSegment c = (c ^^^ 0x55).toNat / 16 % 8 :=
  toNat_extract_eq_div_mod 4 3 _

theorem codeQuant_eq (c : Code) : codeQuant c = (c ^^^ 0x55).toNat % 16 :=
  (toNat_extract_eq_div_mod 0 4 _).trans (by rw [Nat.pow_zero, Nat.div_one]; rfl)

theorem codeSegment_le (c : Code) : codeSegment c ≤ 7 := by
  rw [codeSegment_eq]
  omega

theorem codeQuant_lt (c : Code) : codeQuant c < 16 := by
  rw [codeQuant_eq]
  omega

/-- Bit 7 of a code is not touched by the even-bit inversion of R52. -/
theorem getLsbD_seven_eq (c : Code) : c.getLsbD 7 = decide ((c ^^^ 0x55).toNat / 128 % 2 = 1) := by
  have hbit : (c ^^^ 0x55).getLsbD 7 = c.getLsbD 7 := by simp
  exact hbit.symm.trans (getLsbD_eq_div_mod _ 7)

/-- Two codes are equal when they are with the inversion undone. -/
theorem code_eq_of_toNat_xor {c d : Code} (h : (c ^^^ 0x55).toNat = (d ^^^ 0x55).toNat) : c = d :=
  (BitVec.xor_left_inj 0x55).mp (BitVec.eq_of_toNat_eq h)

/-- A code is its three fields. -/
theorem code_ext {c d : Code} (hsign : c.getLsbD 7 = d.getLsbD 7) (hseg : codeSegment c = codeSegment d)
    (hquant : codeQuant c = codeQuant d) : c = d := by
  rw [getLsbD_seven_eq, getLsbD_seven_eq, decide_eq_decide] at hsign
  rw [codeSegment_eq, codeSegment_eq] at hseg
  rw [codeQuant_eq, codeQuant_eq] at hquant
  have hc : (c ^^^ 0x55).toNat < 256 := (c ^^^ 0x55).isLt
  have hd : (d ^^^ 0x55).toNat < 256 := (d ^^^ 0x55).isLt
  exact code_eq_of_toNat_xor (by omega)

theorem signMask_xor (v : Int) : signMask v ^^^ 0x55 = if 0 ≤ v then 0x80 else 0 := by
  unfold signMask
  split <;> rfl

/-- With the inversion undone, the encoder's code is the sign, the segment and the quantization field side
by side (R41). -/
theorem toNat_encodeResolved_xor {v : Int} {seg : Nat} (h : segmentOf (magnitude v) = some seg) :
    (encodeResolved v ^^^ 0x55).toNat =
      (if 0 ≤ v then 128 else 0) + (16 * seg + quantField seg (magnitude v)) := by
  have hlt : 16 * seg + quantField seg (magnitude v) < 128 := by
    have hseg := segmentOf_le_seven h
    have hquant := quantField_lt seg (magnitude v)
    omega
  have htop : ∀ n < 128, n ^^^ 128 = 128 + n := by decide
  rw [encodeResolved_eq_ofNat h, BitVec.xor_assoc, signMask_xor, BitVec.toNat_xor, BitVec.toNat_ofNat,
    Nat.mod_eq_of_lt (hlt.trans (by decide))]
  split
  next => exact htop _ hlt
  next => exact (Nat.xor_zero _).trans (Nat.zero_add _).symm

/-- The fields of the encoder's code: the sign, the segment found, and its quantization field. -/
theorem fields_encodeResolved {v : Int} {seg : Nat} (h : segmentOf (magnitude v) = some seg) :
    (encodeResolved v).getLsbD 7 = decide (0 ≤ v) ∧ codeSegment (encodeResolved v) = seg ∧
      codeQuant (encodeResolved v) = quantField seg (magnitude v) := by
  have hseg := segmentOf_le_seven h
  have hquant := quantField_lt seg (magnitude v)
  rw [getLsbD_seven_eq, codeSegment_eq, codeQuant_eq, toNat_encodeResolved_xor h, decide_eq_decide]
  split <;> exact ⟨by omega, by omega, by omega⟩

theorem segmentOf_eq_codeSegment {v : Int} (h : magnitude v ≤ 32767) :
    segmentOf (magnitude v) = some (codeSegment (encodeResolved v)) := by
  obtain ⟨seg, hseg⟩ := exists_segmentOf h
  obtain ⟨-, hcode, -⟩ := fields_encodeResolved hseg
  rw [hseg, hcode]

/-- Settles O31: the variants differ in the value whose magnitude is encoded, and its sign is the sample's. -/
theorem codeFieldsGiveSignSegmentStep : Obligations.CodeFieldsGiveSignSegmentStep := by
  intro var x
  have hfields : ∀ v, magnitude v ≤ 32767 → (0 ≤ v ↔ 0 ≤ sampleValue x) →
      (encodeResolved v).getLsbD 7 = decide (0 ≤ sampleValue x) ∧
      segmentOf (magnitude v) = some (codeSegment (encodeResolved v)) ∧
      codeQuant (encodeResolved v) = quantField (codeSegment (encodeResolved v)) (magnitude v) := by
    intro v hm hsign
    have hseg := segmentOf_eq_codeSegment hm
    obtain ⟨hbit, -, hquant⟩ := fields_encodeResolved hseg
    exact ⟨hbit.trans (decide_eq_decide.mpr hsign), hseg, hquant⟩
  cases var with
  | resolved => exact hfields _ (magnitude_sampleValue_le x) Iff.rfl
  | literalDoc =>
    exact hfields _ (magnitude_shiftRight_le (sampleValue_inRange x) 3) (nonneg_shiftRight_iff _ 3)

/-- The lowest magnitude of a code (R62). -/
def stepStart (c : Code) : Nat := segmentBase (codeSegment c) + codeQuant c * stepSize (codeSegment c)

/-- The code of a value is c when its sign is c's and its magnitude lies in c's step (R62). -/
theorem encodeResolved_eq_iff {v : Int} (h : magnitude v ≤ 32767) (c : Code) :
    encodeResolved v = c ↔ c.getLsbD 7 = decide (0 ≤ v) ∧ stepStart c ≤ magnitude v ∧
      magnitude v < stepStart c + stepSize (codeSegment c) := by
  rw [stepStart, ← segment_and_quant_iff_step (codeSegment_le c) (codeQuant_lt c)]
  constructor
  · rintro rfl
    have hseg := segmentOf_eq_codeSegment h
    obtain ⟨hbit, -, hquant⟩ := fields_encodeResolved hseg
    exact ⟨hbit, hseg, hquant.symm⟩
  · rintro ⟨hbit, hseg, hquant⟩
    obtain ⟨hbit', hseg', hquant'⟩ := fields_encodeResolved hseg
    exact code_ext (hbit'.trans hbit.symm) hseg' (hquant'.trans hquant)

theorem codeSegment_and_quant_iff_step {v : Int} (h : magnitude v ≤ 32767) {seg q : Nat}
    (hseg : seg ≤ 7) (hq : q < 16) :
    codeSegment (encodeResolved v) = seg ∧ codeQuant (encodeResolved v) = q ↔
      segmentBase seg + q * stepSize seg ≤ magnitude v ∧
      magnitude v < segmentBase seg + q * stepSize seg + stepSize seg := by
  have hfound := segmentOf_eq_codeSegment h
  obtain ⟨-, -, hquant⟩ := fields_encodeResolved hfound
  rw [← segment_and_quant_iff_step hseg hq, hquant, hfound, Option.some_inj]
  exact and_congr_right fun heq => by rw [heq]

/-- Settles O32: a sample has a magnitude of 15 bits. -/
theorem codeIsOneStepOfMagnitudes : Obligations.CodeIsOneStepOfMagnitudes :=
  fun c x => encodeResolved_eq_iff (magnitude_sampleValue_le x) c

/-- A step stays below the threshold of its segment. -/
theorem step_le_pow (c : Code) : stepStart c + stepSize (codeSegment c) ≤ 2 ^ (codeSegment c + 8) := by
  have hsteps : (codeQuant c + 1) * stepSize (codeSegment c) ≤ 16 * stepSize (codeSegment c) :=
    Nat.mul_le_mul_right _ (codeQuant_lt c)
  rw [← segmentBase_add_steps, stepStart]
  rw [Nat.succ_mul] at hsteps
  omega

/-- Every step is a step of 15-bit magnitudes. -/
theorem step_le (c : Code) : stepStart c + stepSize (codeSegment c) ≤ 32768 :=
  (step_le_pow c).trans (Nat.pow_le_pow_right (by decide) (Nat.add_le_add_right (codeSegment_le c) 8))

theorem stepSize_pos (seg : Nat) : 0 < stepSize seg := by
  unfold stepSize
  split
  · decide
  · exact Nat.two_pow_pos _

theorem stepSize_even (seg : Nat) : stepSize seg % 2 = 0 := by
  unfold stepSize
  split
  · rfl
  · rw [Nat.pow_succ, Nat.mul_mod_left]

/-- A magnitude of the step of c, with c's sign, is encoded as c. -/
theorem encodeResolved_valueOf {c : Code} {m : Nat} (hlo : stepStart c ≤ m)
    (hhi : m < stepStart c + stepSize (codeSegment c)) :
    encodeResolved (valueOf (c.getLsbD 7) m) = c := by
  have hmax := step_le c
  have hm : magnitude (valueOf (c.getLsbD 7) m) ≤ 32767 := by
    rw [magnitude_valueOf]
    omega
  refine (encodeResolved_eq_iff hm c).mpr ?_
  rw [decide_nonneg_valueOf, magnitude_valueOf]
  exact ⟨rfl, hlo, hhi⟩

/-- Settles O33: the inputs of a code and the magnitudes of its step determine each other. -/
theorem everyByteProducedByOneStepOfInputs : Obligations.EveryByteProducedByOneStepOfInputs := by
  intro c
  have hsize : (Finset.Ico (stepStart c) (stepStart c + stepSize (codeSegment c))).card =
      stepSize (codeSegment c) := by simp
  rw [← hsize]
  refine Finset.card_bij (fun a _ => magnitude (sampleValue (BitVec.ofFin a))) ?_ ?_ ?_
  · intro a ha
    obtain ⟨-, hcode⟩ := Finset.mem_filter.mp ha
    obtain ⟨-, hstep⟩ := (codeIsOneStepOfMagnitudes c _).mp hcode
    exact Finset.mem_Ico.mpr hstep
  · intro a ha b hb hmag
    obtain ⟨-, hcodea⟩ := Finset.mem_filter.mp ha
    obtain ⟨-, hcodeb⟩ := Finset.mem_filter.mp hb
    obtain ⟨hsigna, -⟩ := (codeIsOneStepOfMagnitudes c _).mp hcodea
    obtain ⟨hsignb, -⟩ := (codeIsOneStepOfMagnitudes c _).mp hcodeb
    have hvalue : sampleValue (BitVec.ofFin a) = sampleValue (BitVec.ofFin b) := by
      rw [← valueOf_magnitude (sampleValue (BitVec.ofFin a)), ← hsigna, hmag, hsignb, valueOf_magnitude]
    exact congrArg BitVec.toFin (sampleValue_inj.mp hvalue)
  · intro m hm
    obtain ⟨hlo, hhi⟩ := Finset.mem_Ico.mp hm
    have hmax := step_le c
    have hvalue : sampleValue (samplePattern (valueOf (c.getLsbD 7) m)) = valueOf (c.getLsbD 7) m :=
      sampleValue_samplePattern (valueOf_inRange _ (by omega))
    refine ⟨(samplePattern (valueOf (c.getLsbD 7) m)).toFin, ?_, ?_⟩
    · refine Finset.mem_filter.mpr ⟨Finset.mem_univ _, ?_⟩
      rw [BitVec.ofFin_toFin, hvalue, encodeResolved_valueOf hlo hhi]
    · rw [BitVec.ofFin_toFin, hvalue, magnitude_valueOf]

/-- The expansion is the middle of the code's step, with the code's sign. -/
theorem expand_eq (c : Code) :
    expand c = if c.getLsbD 7 then ((stepStart c + stepSize (codeSegment c) / 2 : Nat) : Int)
      else -((stepStart c + stepSize (codeSegment c) / 2 : Nat) : Int) := by
  have hmiddle : (if codeSegment c = 0 then (codeQuant c <<< 4) + 8
      else ((codeQuant c <<< 4) + 0x108) <<< (codeSegment c - 1)) =
      stepStart c + stepSize (codeSegment c) / 2 := by
    have hseg := codeSegment_le c
    unfold stepStart
    generalize codeSegment c = seg, codeQuant c = q at *
    interval_cases seg <;> simp [segmentBase, stepSize, Nat.shiftLeft_eq] <;> omega
  simp only [expand, hmiddle]

/-- Settles O41: no magnitude of a step is further than half of it from the middle. -/
theorem expansionWithinHalfStep : Obligations.ExpansionWithinHalfStep := by
  intro x
  obtain ⟨hsign, hlo, hhi⟩ := (encodeResolved_eq_iff (magnitude_sampleValue_le x) _).mp rfl
  have heven := stepSize_even (codeSegment (encodeResolved (sampleValue x)))
  rw [expand_eq, hsign]
  obtain hv | hv := le_or_gt 0 (sampleValue x)
  · have hm := magnitude_of_nonneg hv
    rw [if_pos (decide_eq_true hv)]
    omega
  · have hm := magnitude_of_neg hv
    rw [if_neg (by simpa using hv)]
    omega

end Sys2Proof.Machine
end

section
/-! Laws of the code of a sample: the complement (R63), saturation (R70), the two variants compared
(R67, R68). -/

open Sys2Proof Sys2Proof.Machine Sys2Proof.Claims

namespace Sys2Proof.Machine

theorem signMask_complement (v : Int) : signMask (-v - 1) = signMask v ^^^ 0x80 := by
  obtain h | h := le_or_gt 0 v
  · rw [signMask_of_nonneg h, signMask_of_neg (by omega)]
    rfl
  · rw [signMask_of_neg h, signMask_of_nonneg (by omega)]
    rfl

/-- The complement has the same magnitude and the other mask, in the branch of R56 too. -/
theorem encodeResolved_complement (v : Int) : encodeResolved (-v - 1) = encodeResolved v ^^^ 0x80 := by
  unfold encodeResolved
  rw [magnitude_complement, signMask_complement]
  cases segmentOf (magnitude v) with
  | none => exact (BitVec.xor_assoc _ _ _).symm
  | some seg => exact (BitVec.xor_assoc _ _ _).symm

/-- Settles O34: shifting keeps complements, so the law of the resolved encoder serves both variants. -/
theorem signSymmetry : Obligations.SignSymmetry := by
  refine ⟨fun v _ _ => encodeResolved_complement v, fun var x => ?_⟩
  rw [sampleValue_not]
  cases var with
  | resolved => exact encodeResolved_complement _
  | literalDoc =>
    rw [encodeSearch, encodeSearch, encodeLiteral, complement_shiftRight, encodeResolved_complement]
    rfl

theorem fdiv_eight_eq_shiftRight (v : Int) : Int.fdiv v 8 = v >>> (3 : Nat) := by
  rw [Int.fdiv_eq_ediv_of_nonneg v (by decide), Int.shiftRight_eq_div_pow]
  rfl

/-- Settles O17: the literal encoder follows the steps on the shifted sample, in either realization. -/
theorem literalEncodeFollowsShiftedSteps : Obligations.LiteralEncodeFollowsShiftedSteps := by
  intro x s hvar
  refine ⟨encoder s.cfg x, ?_, exec_encode x s⟩
  rw [encoder_eq_encodeSearch, hvar, fdiv_eight_eq_shiftRight]
  exact alawStepsGive_encodeResolved
    (segmentOf_eq_codeSegment (magnitude_shiftRight_le (sampleValue_inRange x) 3))

/-- Settles O40: segment 7 begins at 2^14, and its last step at 2^14 + 15 * 2^10 = 31744. -/
theorem saturationOfLargestMagnitudes : Obligations.SaturationOfLargestMagnitudes := by
  refine ⟨by decide, by decide, fun v hlo hhi => ?_, fun v hv => ?_⟩
  · have hm := magnitude_of_nonneg (v := v) (by omega)
    have hseg : segmentOf (magnitude v) = some 7 :=
      (segmentOf_eq_some_iff_range (by decide)).mpr (by simp [segmentBase]; omega)
    obtain ⟨-, hcode, -⟩ := fields_encodeResolved hseg
    exact hcode
  · have hm := magnitude_le_of_inRange hv
    have hlow := magnitude_le_iff v 31743
    rw [codeSegment_and_quant_iff_step hm (by decide) (by decide)]
    simp [segmentBase, stepSize]
    omega

/-- A magnitude above 15 and its eighth never share a step. -/
theorem div_eight_mem_step_iff {m : Nat} {c : Code} (hlo : stepStart c ≤ m)
    (hhi : m < stepStart c + stepSize (codeSegment c)) :
    stepStart c ≤ m / 8 ∧ m / 8 < stepStart c + stepSize (codeSegment c) ↔ m ≤ 15 := by
  have hseg := codeSegment_le c
  unfold stepStart at *
  generalize codeSegment c = seg, codeQuant c = q at *
  interval_cases seg <;> simp [segmentBase, stepSize] at * <;> omega

/-- Settles O38: the codes have one sign, so they are equal when the magnitudes share a step. -/
theorem variantsAgreeExactlyNearZero : Obligations.VariantsAgreeExactlyNearZero := by
  intro v hv
  have hm := magnitude_le_of_inRange hv
  obtain ⟨hsign, hlo, hhi⟩ := (encodeResolved_eq_iff hm _).mp rfl
  rw [encodeLiteral, encodeResolved_eq_iff (magnitude_shiftRight_le hv 3), hsign,
    decide_eq_decide.mpr (nonneg_shiftRight_iff v 3), and_iff_right rfl, magnitude_shiftRight]
  exact (div_eight_mem_step_iff hlo hhi).trans (magnitude_le_iff v 15)

/-- Settles O39: an eighth of a 15-bit magnitude has 12 bits, and each of those is one. -/
theorem literalUsesLowSegmentsOnly : Obligations.LiteralUsesLowSegmentsOnly := by
  have hmag : ∀ x : Sample, magnitude (sampleValue x >>> (3 : Nat)) ≤ 4095 := fun x => by
    have hm := magnitude_sampleValue_le x
    rw [magnitude_shiftRight]
    omega
  refine ⟨hmag, fun c => ⟨?_, fun hseg => ?_⟩, by decide, by decide, by decide, by decide⟩
  · rintro ⟨x, rfl⟩
    have hfound := segmentOf_eq_codeSegment ((hmag x).trans (by decide))
    exact segmentOf_mono (hmag x) hfound (by decide)
  · have hpow : 2 ^ (codeSegment c + 8) ≤ 2 ^ 12 := Nat.pow_le_pow_right (by decide) (by omega)
    have hstart : stepStart c < 2 ^ 12 :=
      (Nat.lt_add_of_pos_right (stepSize_pos _)).trans_le ((step_le_pow c).trans hpow)
    have heighth : 8 * stepStart c / 2 ^ 3 = stepStart c := by omega
    have hvalue : sampleValue (samplePattern (valueOf (c.getLsbD 7) (8 * stepStart c))) = _ :=
      sampleValue_samplePattern (valueOf_inRange _ (by omega))
    refine ⟨samplePattern (valueOf (c.getLsbD 7) (8 * stepStart c)), ?_⟩
    rw [encodeLiteral, hvalue, valueOf_shiftRight, heighth]
    exact encodeResolved_valueOf (Nat.le_refl _) (Nat.lt_add_of_pos_right (stepSize_pos _))

end Sys2Proof.Machine
end

section
/-! The bit form and the 13-bit form of the encoder (R60, R61). -/

open Sys2Proof Sys2Proof.Machine Sys2Proof.Claims

namespace Sys2Proof.Machine

/-- The bits of a quantization field are four, in segment 0 those of segment 1 (R57). -/
theorem toNat_quantBits (m : BitVec 15) :
    (quantBits m).toNat = quantField (segmentBits m) m.toNat := by
  rw [quantField_eq, quantBits]
  split
  next h =>
    rw [if_pos (by omega)]
    exact toNat_extract_eq_div_mod 4 4 m
  next h =>
    rw [toNat_extract_eq_div_mod]
    split
    next hlow => rw [show segmentBits m = 1 by omega]; rfl
    next => rfl

/-- With the inversion undone, the bit form is its three fields side by side. -/
theorem encodeBits_xor (x : Sample) :
    encodeBits x ^^^ 0x55 = BitVec.ofBool (!x.getLsbD 15) ++
      BitVec.ofNat 3 (segmentBits (magnitudeBits x)) ++ quantBits (magnitudeBits x) := by
  have hcancel : (0x55#8 ^^^ 0x55 : Code) = 0#8 := rfl
  rw [encodeBits, BitVec.xor_assoc, hcancel, BitVec.xor_zero]

/-- Settles O29: with the inversion undone, both forms are the same three fields. -/
theorem bitFormIsEncoder : Obligations.BitFormIsEncoder := by
  intro x
  have hseg : segmentOf (magnitude (sampleValue x)) = some (segmentBits (magnitudeBits x)) := by
    rw [← toNat_magnitudeBits, segmentOf_eq_segmentBits]
  have hle := segmentOf_le_seven hseg
  refine code_eq_of_toNat_xor ?_
  rw [toNat_encodeResolved_xor hseg, encodeBits_xor, toNat_append_eq_add, toNat_append_eq_add,
    toNat_quantBits, toNat_magnitudeBits, BitVec.toNat_ofNat, BitVec.toNat_ofBool]
  obtain hneg | hnonneg := lt_or_ge (sampleValue x) 0
  · rw [getLsbD_sign_of_neg hneg, if_neg (Int.not_le.mpr hneg), Bool.not_true, Bool.toNat_false]
    omega
  · rw [getLsbD_sign_of_nonneg hnonneg, if_pos hnonneg, Bool.not_false, Bool.toNat_true]
    omega

/-- The scaled thresholds find the same segment in the shifted magnitude. -/
theorem search13_eq_segmentOf (m : Nat) :
    segmentTable13.findIdx? (fun t => decide (m / 8 ≤ t)) = segmentOf m := by
  simp only [segmentOf, segmentTable, segmentTable13, List.findIdx?_cons, List.findIdx?_nil,
    show m / 8 ≤ 31 ↔ m ≤ 255 by omega, show m / 8 ≤ 63 ↔ m ≤ 511 by omega,
    show m / 8 ≤ 127 ↔ m ≤ 1023 by omega, show m / 8 ≤ 255 ↔ m ≤ 2047 by omega,
    show m / 8 ≤ 511 ↔ m ≤ 4095 by omega, show m / 8 ≤ 1023 ↔ m ≤ 8191 by omega,
    show m / 8 ≤ 2047 ↔ m ≤ 16383 by omega, show m / 8 ≤ 4095 ↔ m ≤ 32767 by omega]

/-- The scaled shifts give the same quantization field. -/
theorem quant13_eq_quantField (seg m : Nat) :
    (if seg ≤ 1 then ((m / 8) >>> 1) &&& 0xF else ((m / 8) >>> seg) &&& 0xF) = quantField seg m := by
  have hshift : ∀ k, (m / 8) >>> k = m >>> (k + 3) := fun k => by
    rw [Nat.add_comm, Nat.shiftRight_add, Nat.shiftRight_eq_div_pow m 3]
  rw [hshift, hshift, quantField]

/-- Settles O30: the shifted value keeps its sign, and an eighth of its magnitude has the same segment and
field under the scaled thresholds and shifts. -/
theorem thirteenBitFormIsEncoder : Obligations.ThirteenBitFormIsEncoder := by
  intro v hv
  have hmag : (if 0 ≤ v >>> (3 : Nat) then (v >>> (3 : Nat)).toNat else (-(v >>> (3 : Nat)) - 1).toNat) =
    magnitude v / 8 := magnitude_shiftRight v 3
  have hmask : (if 0 ≤ v >>> (3 : Nat) then 0xD5 else 0x55) = signMask v := signMask_shiftRight v 3
  obtain ⟨seg, hseg⟩ := exists_segmentOf (magnitude_le_of_inRange hv)
  simp only [encode13, hmag, hmask, search13_eq_segmentOf, hseg, quant13_eq_quantField]
  exact (encodeResolved_of_segment hseg).symm

end Sys2Proof.Machine
end

section
/-! The words of assembler lines (R47), and the disassembler's lines (R49). -/

open Sys2Proof Sys2Proof.Machine Sys2Proof.Claims

namespace Sys2Proof.Machine

theorem wf_dec_iff (v : Int) : (AsmOperand.dec v).wf = true ↔ InSampleRange v :=
  decide_eq_true_iff

theorem wf_hex (x : Sample) : (AsmOperand.hex x).wf = true := rfl

theorem operandPattern_dec (v : Int) : operandPattern (.dec v) = samplePattern v := rfl

theorem operandPattern_hex (x : Sample) : operandPattern (.hex x) = x := samplePattern_sampleValue x

theorem assemble_sample {o : AsmOperand} (h : o.wf = true) :
    assemble (.sample o) = .ok [stepOf false true (operandPattern o)] :=
  assemble_of_wf h

theorem assemble_encode {o : AsmOperand} (h : o.wf = true) :
    assemble (.encode o) = .ok [.enc16 (operandPattern o)] :=
  assemble_of_wf h

theorem assemble_step {o : AsmOperand} (h : o.wf = true) (r i : Bool) :
    assemble (.step r i o) = .ok [stepOf r i (operandPattern o)] :=
  assemble_of_wf h

theorem assemble_reset : assemble .reset = .ok [.step18 0x20000] := assemble_of_wf rfl
theorem assemble_idle : assemble .idle = .ok [.step18 0x00000] := assemble_of_wf rfl

/-- One operand out of range makes the whole SAMPLES line ill-formed. -/
theorem assemble_samples_of_not_wf {o : AsmOperand} {vs : List AsmOperand} (ho : o.wf = false)
    (hmem : o ∈ vs) : assemble (.samples vs) = .error .outOfRange := by
  have hwf : (AsmLine.samples vs).wf = false := by
    refine Bool.eq_false_iff.mpr fun hwf => ?_
    obtain ⟨-, hall⟩ := (wf_samples_iff vs).mp hwf
    simp [hall o hmem] at ho
  cases vs with
  | nil => simp at hmem
  | cons v vs => exact assemble_of_not_wf hwf

/-- Settles O54: a decimal operand is well formed exactly in range, and then its pattern has its value. -/
theorem assemblerRefusesWhatItWouldWrap : Obligations.AssemblerRefusesWhatItWouldWrap := by
  refine ⟨fun v hv => ?_, fun v hv => ?_, fun x => ?_, assemble_reset, assemble_idle⟩
  · have hwf : (AsmOperand.dec v).wf = false := Bool.eq_false_iff.mpr (mt (wf_dec_iff v).mp hv)
    exact ⟨assemble_of_not_wf hwf, assemble_of_not_wf hwf, fun _ _ => assemble_of_not_wf hwf,
      fun _ hmem => assemble_samples_of_not_wf hwf hmem⟩
  · have hwf := (wf_dec_iff v).mpr hv
    exact ⟨samplePattern v, sampleValue_samplePattern hv, assemble_sample hwf, assemble_encode hwf,
      assemble_step hwf⟩
  · have hpattern := operandPattern_hex x
    refine ⟨?_, ?_, fun r i => ?_⟩
    · rw [assemble_sample (wf_hex x), hpattern]
    · rw [assemble_encode (wf_hex x), hpattern]
    · rw [assemble_step (wf_hex x), hpattern]

/-- The operation without the fields it ignores, whose word the assembler gives (R49). -/
def canonicalForm : Instr → Instr
  | .reset _ _ => .reset false 0
  | .sample x => .sample x
  | .idle _ => .idle 0
  | .encode x => .encode x

/-- The line an operation prints as. -/
def printedLine : Instr → AsmLine
  | .reset _ _ => .reset
  | .sample x => .sample (.dec (sampleValue x))
  | .idle _ => .idle
  | .encode x => .encode (.dec (sampleValue x))

theorem disassemble_eq_printedLine (w : PortWord) : disassemble w = printedLine (decode w) := by
  unfold disassemble
  cases decode w <;> rfl

theorem canonical_canonicalForm (i : Instr) : (canonicalForm i).canonical = true := by
  cases i <;> rfl

theorem printedLine_canonicalForm (i : Instr) : printedLine (canonicalForm i) = printedLine i := by
  cases i <;> rfl

/-- The fields left out have no effect (R43, R93, R74). -/
theorem exec_canonicalForm (i : Instr) (s : State) : exec (canonicalForm i) s = exec i s := by
  cases i <;> rfl

theorem assemble_printedLine (i : Instr) : assemble (printedLine i) = .ok [encode (canonicalForm i)] := by
  have hdec : ∀ x : Sample, (AsmOperand.dec (sampleValue x)).wf = true := fun x =>
    (wf_dec_iff _).mpr (sampleValue_inRange x)
  cases i with
  | reset iv x => exact assemble_reset
  | sample x =>
    rw [printedLine, assemble_sample (hdec x), operandPattern_dec, samplePattern_sampleValue]
    rfl
  | idle x => exact assemble_idle
  | encode x =>
    rw [printedLine, assemble_encode (hdec x), operandPattern_dec, samplePattern_sampleValue]
    rfl

/-- Settles O56: the printed line gives back the word of the operation's canonical form. -/
theorem disassembledLineHasSameEffect : Obligations.DisassembledLineHasSameEffect := by
  refine ⟨fun iv x => ?_, fun x => ?_, fun x => ?_, fun x => rfl,
    fun w => ⟨encode (canonicalForm (decode w)), ?_, ?_, ?_, fun s => ?_⟩⟩
  · rw [disassemble_eq_printedLine, decode_stepOf_rst]; rfl
  · rw [disassemble_eq_printedLine, decode_stepOf_valid]; rfl
  · rw [disassemble_eq_printedLine, decode_stepOf_neither]; rfl
  · rw [disassemble_eq_printedLine, assemble_printedLine]
  · rw [decode_encode, canonical_canonicalForm]
  · rw [disassemble_eq_printedLine, disassemble_eq_printedLine, decode_encode, printedLine_canonicalForm]
  · rw [decode_encode, exec_canonicalForm]

end Sys2Proof.Machine
end
